-- ==== Sys2Proof/Word.lean ====
section
/-! DEFINITION. The widths of spec/00_scope.md rule R9 and spec/10_state.md rules R14 to R21: unsigned words, never signed. -/

namespace Sys2Proof

/-- An 8-bit value: a general register, DT, ST, SP, a memory byte, the field kk (R14, R19 to R21, R54). -/
abbrev Byte := BitVec 8

/-- A 16-bit value: I, PC, a call-stack entry, an instruction word (R16, R17, R21, R51). -/
abbrev Word := BitVec 16

/-- The 12-bit address field nnn (R52, R54). -/
abbrev Addr := BitVec 12

/-- A 4-bit register index naming V0..VF (R14, R54). -/
abbrev Reg := BitVec 4

/-- A 4-bit field that is no register index: the row count n of DRW (R52). -/
abbrev Nibble := BitVec 4

/-- A key code 0..15 (R26, R139). -/
abbrev Key := BitVec 4

/-- The index of VF, the flag register (R15). -/
abbrev Reg.vF : Reg := 0xF#4

/-- The index of V0, the implicit operand of JP V0,addr (R85). -/
abbrev Reg.v0 : Reg := 0x0#4

end Sys2Proof
end

