-- ==== Sys2Proof/Syntax.lean ====
section
/-! DEFINITION. The 34 instructions of spec/opcode_table.json, one constructor per row, with the operands of
spec/30_encoding.md rules R52 to R56. Register numbers, immediates, addresses and counts have exactly the width of their field. -/

namespace Sys2Proof

/-- The instructions of the dispatch table (R53). SHR and SHL keep the y field that the executor ignores (R65, R104, R106);
SE Vx,Vy and SNE Vx,Vy do not keep the ignored low nibble (R61, R64). -/
inductive Instr where
  /-- CLS, 00E0 (R116). -/
  | cls
  /-- RET, 00EE (R82). -/
  | ret
  /-- JP addr, 1nnn (R83). -/
  | jpAddr (nnn : Addr)
  /-- CALL addr, 2nnn (R84). -/
  | callAddr (nnn : Addr)
  /-- SE Vx,byte, 3xkk (R87). -/
  | seVxByte (x : Reg) (kk : Byte)
  /-- SNE Vx,byte, 4xkk (R88). -/
  | sneVxByte (x : Reg) (kk : Byte)
  /-- SE Vx,Vy, 5xyN (R89). -/
  | seVxVy (x y : Reg)
  /-- LD Vx,byte, 6xkk (R96). -/
  | ldVxByte (x : Reg) (kk : Byte)
  /-- ADD Vx,byte, 7xkk (R97). -/
  | addVxByte (x : Reg) (kk : Byte)
  /-- LD Vx,Vy, 8xy0 (R98). -/
  | ldVxVy (x y : Reg)
  /-- OR Vx,Vy, 8xy1 (R99). -/
  | orVxVy (x y : Reg)
  /-- AND Vx,Vy, 8xy2 (R100). -/
  | andVxVy (x y : Reg)
  /-- XOR Vx,Vy, 8xy3 (R101). -/
  | xorVxVy (x y : Reg)
  /-- ADD Vx,Vy, 8xy4 (R102). -/
  | addVxVy (x y : Reg)
  /-- SUB Vx,Vy, 8xy5 (R103). -/
  | subVxVy (x y : Reg)
  /-- SHR Vx, 8xy6; y is kept and ignored (R104). -/
  | shrVx (x y : Reg)
  /-- SUBN Vx,Vy, 8xy7 (R105). -/
  | subnVxVy (x y : Reg)
  /-- SHL Vx, 8xyE; y is kept and ignored (R106). -/
  | shlVx (x y : Reg)
  /-- SNE Vx,Vy, 9xyN (R90). -/
  | sneVxVy (x y : Reg)
  /-- LD I,addr, Annn (R109). -/
  | ldIAddr (nnn : Addr)
  /-- JP V0,addr, Bnnn (R85). -/
  | jpV0Addr (nnn : Addr)
  /-- RND Vx,byte, Cxkk (R107). -/
  | rndVxByte (x : Reg) (kk : Byte)
  /-- DRW Vx,Vy,n, Dxyn (R117). -/
  | drwVxVyN (x y : Reg) (n : Nibble)
  /-- SKP Vx, Ex9E (R92). -/
  | skpVx (x : Reg)
  /-- SKNP Vx, ExA1 (R93). -/
  | sknpVx (x : Reg)
  /-- LD Vx,DT, Fx07 (R118). -/
  | ldVxDt (x : Reg)
  /-- LD Vx,K, Fx0A (R119). -/
  | ldVxK (x : Reg)
  /-- LD DT,Vx, Fx15 (R120). -/
  | ldDtVx (x : Reg)
  /-- LD ST,Vx, Fx18 (R121). -/
  | ldStVx (x : Reg)
  /-- ADD I,Vx, Fx1E (R110). -/
  | addIVx (x : Reg)
  /-- LD F,Vx, Fx29 (R111). -/
  | ldFVx (x : Reg)
  /-- LD B,Vx, Fx33 (R112). -/
  | ldBVx (x : Reg)
  /-- LD [I],Vx, Fx55 (R113). -/
  | ldMemVx (x : Reg)
  /-- LD Vx,[I], Fx65 (R114). -/
  | ldVxMem (x : Reg)
  deriving DecidableEq, Repr

end Sys2Proof
end

