-- ==== Sys2Proof/WellFormed.lean ====
section
/-! DEFINITION. Which decode results and which words are well-formed. A term of Instr is well-formed by its type: every
operand has exactly the width of its field (spec/30_encoding.md rule R54), so there is nothing left to check on it. The
checks are on Unknown(w), which stands for the words of R62 only, and on words an encoder may emit (R64). -/

namespace Sys2Proof

/-- One of the 35 results of decoding (R53, R56): an instruction, or "a distinct, observable Unknown variant" with its word. -/
inductive Variant where
  | instr (i : Instr)
  | unknown (w : Word)
  deriving DecidableEq, Repr

/-- The words that decode to Unknown, as R62 lists them, family by family. -/
def isUnknownWord (w : Word) : Bool :=
  (w.toNat / 0x1000 == 0x0 && !([0x00E0, 0x00EE].contains w.toNat)) ||
  (w.toNat / 0x1000 == 0x8 && [0x8, 0x9, 0xA, 0xB, 0xC, 0xD, 0xF].contains (w.toNat % 0x10)) ||
  (w.toNat / 0x1000 == 0xE && !([0x9E, 0xA1].contains (w.toNat % 0x100))) ||
  (w.toNat / 0x1000 == 0xF &&
    !([0x07, 0x0A, 0x15, 0x18, 0x1E, 0x29, 0x33, 0x55, 0x65].contains (w.toNat % 0x100)))

/-- The words that are the encoding of an instruction: not Unknown, and with the ignored low nibble of families 5 and 9
written as 0 (R64, the spec's decision D11). -/
def isCanonicalWord (w : Word) : Bool :=
  !isUnknownWord w && (!([0x5, 0x9].contains (w.toNat / 0x1000)) || w.toNat % 0x10 == 0)

/-- An instruction is well-formed whatever its operands; Unknown holds one of the words of R62. -/
def Variant.wellFormed : Variant → Bool
  | .instr _ => true
  | .unknown w => isUnknownWord w

end Sys2Proof
end

