-- ==== Sys2Proof/Decode.lean ====
section
/-! DEFINITION. The decoder of spec/30_encoding.md rules R51 to R64 (the words of spec/opcode_table.json), total on any
bytes, and the encoder. Field positions and the sub-opcode values of families 8, E and F are the ones the spec supplies from
general knowledge (spec/93_implementation_defined.md G1 to G4; PRESUMED by the spec, log 13). -/

namespace Sys2Proof

/-! ### The fields of a word (R52) -/

/-- The primary family selector, bits 15:12. -/
def fieldOp (w : Word) : BitVec 4 := w.extractLsb' 12 4

/-- The 12-bit address, bits 11:0. -/
def fieldNnn (w : Word) : Addr := w.extractLsb' 0 12

/-- The first register index, bits 11:8. -/
def fieldX (w : Word) : Reg := w.extractLsb' 8 4

/-- The second register index, bits 7:4. -/
def fieldY (w : Word) : Reg := w.extractLsb' 4 4

/-- The 8-bit immediate and the sub-opcode of families E and F, bits 7:0. -/
def fieldKk (w : Word) : Byte := w.extractLsb' 0 8

/-- The count of DRW and the sub-opcode of family 8, bits 3:0. -/
def fieldN (w : Word) : Nibble := w.extractLsb' 0 4

/-! ### The decoder (R56) -/

/-- Family 0, keyed by the whole word (R57; spec/90_conflicts.md C3). -/
def decodeFamily0 (w : Word) : Variant :=
  if w = 0x00E0#16 then .instr .cls
  else if w = 0x00EE#16 then .instr .ret
  else .unknown w

/-- Family 8, keyed by the low nibble (R58). -/
def decodeFamily8 (w : Word) : Variant :=
  match (fieldN w).toNat with
  | 0x0 => .instr (.ldVxVy (fieldX w) (fieldY w))
  | 0x1 => .instr (.orVxVy (fieldX w) (fieldY w))
  | 0x2 => .instr (.andVxVy (fieldX w) (fieldY w))
  | 0x3 => .instr (.xorVxVy (fieldX w) (fieldY w))
  | 0x4 => .instr (.addVxVy (fieldX w) (fieldY w))
  | 0x5 => .instr (.subVxVy (fieldX w) (fieldY w))
  | 0x6 => .instr (.shrVx (fieldX w) (fieldY w))
  | 0x7 => .instr (.subnVxVy (fieldX w) (fieldY w))
  | 0xE => .instr (.shlVx (fieldX w) (fieldY w))
  | _ => .unknown w

/-- Family E, keyed by the low byte (R59). -/
def decodeFamilyE (w : Word) : Variant :=
  match (fieldKk w).toNat with
  | 0x9E => .instr (.skpVx (fieldX w))
  | 0xA1 => .instr (.sknpVx (fieldX w))
  | _ => .unknown w

/-- Family F, keyed by the low byte (R60). -/
def decodeFamilyF (w : Word) : Variant :=
  match (fieldKk w).toNat with
  | 0x07 => .instr (.ldVxDt (fieldX w))
  | 0x0A => .instr (.ldVxK (fieldX w))
  | 0x15 => .instr (.ldDtVx (fieldX w))
  | 0x18 => .instr (.ldStVx (fieldX w))
  | 0x1E => .instr (.addIVx (fieldX w))
  | 0x29 => .instr (.ldFVx (fieldX w))
  | 0x33 => .instr (.ldBVx (fieldX w))
  | 0x55 => .instr (.ldMemVx (fieldX w))
  | 0x65 => .instr (.ldVxMem (fieldX w))
  | _ => .unknown w

/-- `decode(w)`: every 16-bit word to exactly one of the 35 variants (R56, R64). Families 5 and 9 ignore the low nibble (R61). -/
def decode (w : Word) : Variant :=
  match (fieldOp w).toNat with
  | 0x0 => decodeFamily0 w
  | 0x1 => .instr (.jpAddr (fieldNnn w))
  | 0x2 => .instr (.callAddr (fieldNnn w))
  | 0x3 => .instr (.seVxByte (fieldX w) (fieldKk w))
  | 0x4 => .instr (.sneVxByte (fieldX w) (fieldKk w))
  | 0x5 => .instr (.seVxVy (fieldX w) (fieldY w))
  | 0x6 => .instr (.ldVxByte (fieldX w) (fieldKk w))
  | 0x7 => .instr (.addVxByte (fieldX w) (fieldKk w))
  | 0x8 => decodeFamily8 w
  | 0x9 => .instr (.sneVxVy (fieldX w) (fieldY w))
  | 0xA => .instr (.ldIAddr (fieldNnn w))
  | 0xB => .instr (.jpV0Addr (fieldNnn w))
  | 0xC => .instr (.rndVxByte (fieldX w) (fieldKk w))
  | 0xD => .instr (.drwVxVyN (fieldX w) (fieldY w) (fieldN w))
  | 0xE => decodeFamilyE w
  | _ => decodeFamilyF w

/-! ### Words and bytes (R37, R38) -/

/-- The big-endian word of two bytes: `hi : lo`. -/
def bigEndian (hi lo : Byte) : Word := hi ++ lo

/-- The byte of a word that lies at the lower address, bits 15:8. -/
def highByte (w : Word) : Byte := w.extractLsb' 8 8

/-- The byte of a word that lies at the higher address, bits 7:0. -/
def lowByte (w : Word) : Byte := w.extractLsb' 0 8

/-- Why a sequence of bytes gives no instruction. -/
inductive DecodeError where
  /-- Fewer than the two bytes every instruction has (R51). -/
  | truncated
  /-- The word is one of the Unknown words of R62. -/
  | unknownOpcode (w : Word)
  deriving DecidableEq, Repr

/-- The instruction at the front of a sequence of bytes, with the rest of the bytes, or the reason there is none. -/
def decodeBytes : List Byte → Except DecodeError (Instr × List Byte)
  | hi :: lo :: rest =>
    match decode (bigEndian hi lo) with
    | .instr i => .ok (i, rest)
    | .unknown w => .error (.unknownOpcode w)
  | _ => .error .truncated

/-- What the decoder reads from an instruction whose bits are `w`, numbered as spec/opcode_table.json numbers them: one
16-bit word, its high byte first in memory (R38, R51). Bits at and above `nbits` are 0. -/
def decodeTableWord (nbits w : Nat) : Option Instr :=
  match decodeBytes [highByte (BitVec.ofNat 16 (w % 2 ^ nbits)), lowByte (BitVec.ofNat 16 (w % 2 ^ nbits))] with
  | .ok (i, _) => some i
  | .error _ => none

/-! ### The encoder (R64) -/

/-- Format A: op, nnn (R53). -/
def formatA (op : BitVec 4) (nnn : Addr) : Word := op ++ nnn

/-- Format XK, and XF with the sub-opcode in place of kk: op, x, kk (R53). -/
def formatXK (op : BitVec 4) (x : Reg) (kk : Byte) : Word := op ++ x ++ kk

/-- Formats XY and XYN: op, x, y and the low nibble (R53). -/
def formatXY (op : BitVec 4) (x y : Reg) (n : Nibble) : Word := op ++ x ++ y ++ n

/-- The word of an instruction: its fixed bits and fields as spec/opcode_table.json gives them; the ignored nibble of
SE Vx,Vy and SNE Vx,Vy as 0, the y field of SHR and SHL as it is (R64, R65). -/
def encode : Instr → Word
  | .cls => 0x00E0#16
  | .ret => 0x00EE#16
  | .jpAddr nnn => formatA 0x1#4 nnn
  | .callAddr nnn => formatA 0x2#4 nnn
  | .seVxByte x kk => formatXK 0x3#4 x kk
  | .sneVxByte x kk => formatXK 0x4#4 x kk
  | .seVxVy x y => formatXY 0x5#4 x y 0x0#4
  | .ldVxByte x kk => formatXK 0x6#4 x kk
  | .addVxByte x kk => formatXK 0x7#4 x kk
  | .ldVxVy x y => formatXY 0x8#4 x y 0x0#4
  | .orVxVy x y => formatXY 0x8#4 x y 0x1#4
  | .andVxVy x y => formatXY 0x8#4 x y 0x2#4
  | .xorVxVy x y => formatXY 0x8#4 x y 0x3#4
  | .addVxVy x y => formatXY 0x8#4 x y 0x4#4
  | .subVxVy x y => formatXY 0x8#4 x y 0x5#4
  | .shrVx x y => formatXY 0x8#4 x y 0x6#4
  | .subnVxVy x y => formatXY 0x8#4 x y 0x7#4
  | .shlVx x y => formatXY 0x8#4 x y 0xE#4
  | .sneVxVy x y => formatXY 0x9#4 x y 0x0#4
  | .ldIAddr nnn => formatA 0xA#4 nnn
  | .jpV0Addr nnn => formatA 0xB#4 nnn
  | .rndVxByte x kk => formatXK 0xC#4 x kk
  | .drwVxVyN x y n => formatXY 0xD#4 x y n
  | .skpVx x => formatXK 0xE#4 x 0x9E#8
  | .sknpVx x => formatXK 0xE#4 x 0xA1#8
  | .ldVxDt x => formatXK 0xF#4 x 0x07#8
  | .ldVxK x => formatXK 0xF#4 x 0x0A#8
  | .ldDtVx x => formatXK 0xF#4 x 0x15#8
  | .ldStVx x => formatXK 0xF#4 x 0x18#8
  | .addIVx x => formatXK 0xF#4 x 0x1E#8
  | .ldFVx x => formatXK 0xF#4 x 0x29#8
  | .ldBVx x => formatXK 0xF#4 x 0x33#8
  | .ldMemVx x => formatXK 0xF#4 x 0x55#8
  | .ldVxMem x => formatXK 0xF#4 x 0x65#8

/-- The word of a decode result: an Unknown word is its own encoding (R64). -/
def Variant.encode : Variant → Word
  | .instr i => Sys2Proof.encode i
  | .unknown w => w

/-- The bytes of an instruction as memory holds them, the high byte at the lower address (R38). -/
def encodeBytes (i : Instr) : List Byte := [highByte (encode i), lowByte (encode i)]

/-! ### The opcode table -/

/-- A row of spec/opcode_table.json: an instruction word w belongs to the row when `w AND mask = pattern`. -/
structure TableRow where
  mask : Word
  pattern : Word
  deriving DecidableEq, Repr

/-- The columns "mask" and "match" of the instruction's row. -/
def Instr.row : Instr → TableRow
  | .cls => ⟨0xFFFF#16, 0x00E0#16⟩
  | .ret => ⟨0xFFFF#16, 0x00EE#16⟩
  | .jpAddr _ => ⟨0xF000#16, 0x1000#16⟩
  | .callAddr _ => ⟨0xF000#16, 0x2000#16⟩
  | .seVxByte _ _ => ⟨0xF000#16, 0x3000#16⟩
  | .sneVxByte _ _ => ⟨0xF000#16, 0x4000#16⟩
  | .seVxVy _ _ => ⟨0xF000#16, 0x5000#16⟩
  | .ldVxByte _ _ => ⟨0xF000#16, 0x6000#16⟩
  | .addVxByte _ _ => ⟨0xF000#16, 0x7000#16⟩
  | .ldVxVy _ _ => ⟨0xF00F#16, 0x8000#16⟩
  | .orVxVy _ _ => ⟨0xF00F#16, 0x8001#16⟩
  | .andVxVy _ _ => ⟨0xF00F#16, 0x8002#16⟩
  | .xorVxVy _ _ => ⟨0xF00F#16, 0x8003#16⟩
  | .addVxVy _ _ => ⟨0xF00F#16, 0x8004#16⟩
  | .subVxVy _ _ => ⟨0xF00F#16, 0x8005#16⟩
  | .shrVx _ _ => ⟨0xF00F#16, 0x8006#16⟩
  | .subnVxVy _ _ => ⟨0xF00F#16, 0x8007#16⟩
  | .shlVx _ _ => ⟨0xF00F#16, 0x800E#16⟩
  | .sneVxVy _ _ => ⟨0xF000#16, 0x9000#16⟩
  | .ldIAddr _ => ⟨0xF000#16, 0xA000#16⟩
  | .jpV0Addr _ => ⟨0xF000#16, 0xB000#16⟩
  | .rndVxByte _ _ => ⟨0xF000#16, 0xC000#16⟩
  | .drwVxVyN _ _ _ => ⟨0xF000#16, 0xD000#16⟩
  | .skpVx _ => ⟨0xF0FF#16, 0xE09E#16⟩
  | .sknpVx _ => ⟨0xF0FF#16, 0xE0A1#16⟩
  | .ldVxDt _ => ⟨0xF0FF#16, 0xF007#16⟩
  | .ldVxK _ => ⟨0xF0FF#16, 0xF00A#16⟩
  | .ldDtVx _ => ⟨0xF0FF#16, 0xF015#16⟩
  | .ldStVx _ => ⟨0xF0FF#16, 0xF018#16⟩
  | .addIVx _ => ⟨0xF0FF#16, 0xF01E#16⟩
  | .ldFVx _ => ⟨0xF0FF#16, 0xF029#16⟩
  | .ldBVx _ => ⟨0xF0FF#16, 0xF033#16⟩
  | .ldMemVx _ => ⟨0xF0FF#16, 0xF055#16⟩
  | .ldVxMem _ => ⟨0xF0FF#16, 0xF065#16⟩

end Sys2Proof
end

