-- ==== Sys2Proof/Config.lean ====
section
/-! DEFINITION. What is fixed for the machine (spec/00_scope.md rule R6) as far as it shapes the types of State, the two
policy types, and the free values of the host (spec/93_implementation_defined.md section 1, treatment 'any value').
The parameters a test could show to be set otherwise (FONT_BASE, FONT, the two policies, LOAD_BASE) stand in
Sys2Proof/Machine/Params.lean. -/

namespace Sys2Proof.Config

/-- MEM_SIZE: bytes of memory, addresses 0..MEM_SIZE-1 (R6). -/
abbrev memSize : Nat := 4096

/-- NUM_V: general registers (R6). State's type holds the same number as a literal. -/
abbrev numV : Nat := 16

/-- STACK_DEPTH: call-stack entries (R6). State's type holds the same number as a literal. -/
abbrev stackDepth : Nat := 16

/-- NUM_KEYS: key codes 0..15 (R6). -/
abbrev numKeys : Nat := 16

/-- DISPLAY_W: display columns (R6). State's type holds the same number as a literal. -/
abbrev displayW : Nat := 64

/-- DISPLAY_H: display rows (R6). State's type holds the same number as a literal. -/
abbrev displayH : Nat := 32

/-- TIMER_HZ: the rate of timer ticks, "a fairness statement only, no rule of the model reads it" (R6, R125). -/
abbrev timerHz : Nat := 60

/-- ODD_PC_POLICY: what a fetch at an odd PC does (R6, R39, R68). -/
inductive OddPcPolicy where
  | fault
  | allow
  deriving DecidableEq, Repr

/-- KEY_RANGE_POLICY: what SKP and SKNP do with a key index above 15 (R6, R91). -/
inductive KeyRangePolicy where
  | fault
  | mask
  deriving DecidableEq, Repr

/-- DESIGN CHOICE, log 4. The byte the random source returns at the n-th draw when no draw is scripted in State: a free
value, "a draw with no law, neither its distribution nor its sequence" (R145). It has no body. -/
opaque freeByte : Nat → Byte

/-- DESIGN CHOICE, log 3. The key map (bit k: key k is down) the Input Source answers from at the n-th draw when no answer
is scripted in State: a free value, "the model admits either answer for every key at every query" (R142). -/
opaque freeKeys : Nat → BitVec 16

end Sys2Proof.Config
end

