-- ==== Sys2Proof/Machine/State.lean ====
section
/-! DEFINITION. The state of spec/10_state.md rule R13 as plain data, and its value after reset (R31). Beside it stand the
model's own fields, `host`: what the environment will do and answer (spec/00_scope.md rule R7, spec/60_exceptions.md rule R146). -/

namespace Sys2Proof.Machine

/-- Why the machine halted, with the value recorded: the `Halted(reason, info)` of R27 and the table of R126. -/
inductive HaltReason where
  /-- The host's terminate signal (R136); no info. -/
  | terminated
  /-- A byte at or above MEM_SIZE, a control-transfer target below LOAD_BASE, or a key index above 15; the info is "the
  offending address or key index (16-bit or wider integer)". -/
  | outOfBounds (index : Nat)
  /-- CALL on a full stack; the info is the PC of the CALL. -/
  | stackOverflow (pc : Word)
  /-- RET on an empty stack; the info is the PC of the RET. -/
  | stackUnderflow (pc : Word)
  /-- The fetched word decodes to Unknown; the info is the word and the PC. -/
  | unknownOpcode (word pc : Word)
  /-- A fetch at an odd PC under ODD_PC_POLICY = fault; the info is the PC. -/
  | misalignedFetch (pc : Word)
  deriving DecidableEq, Repr

/-- The sequencer state SEQ (R27). -/
inductive Seq where
  /-- The next step fetches the instruction at PC. -/
  | run
  /-- A LD Vx,K at PC is suspended awaiting a key-down report; x is the destination index. -/
  | awaitKey (x : Reg)
  /-- Terminal (R76). -/
  | halted (reason : HaltReason)
  deriving DecidableEq, Repr

/-- One move of the host between instruction steps (R67, R78). DESIGN CHOICE, log 2. -/
inductive HostMove where
  /-- The host takes no step of its own: the sequencer has its turn. -/
  | pass
  /-- A timer tick (R122). -/
  | tick
  /-- The Input Source reports a key-down (R123). -/
  | key (k : Key)
  /-- The terminate signal is set (R136). -/
  | terminate
  deriving DecidableEq, Repr

/-- What the environment will do and answer, as plain data. Not state of the core (R13, R26): a statement over all states
holds for every behaviour of the host that some value of this field describes. DESIGN CHOICE, log 2 to 5. -/
structure HostInputs where
  /-- The host's coming moves, first one first; none listed: the host leaves the turn to the sequencer (log 2). -/
  moves : List HostMove
  /-- The key maps (bit k: key k is down) from which the coming is_down queries are answered, one per query (R142); none
  listed: the answer is the free value `Config.freeKeys` (log 3). -/
  keys : List (BitVec 16)
  /-- The coming RandomByte draws (R145); none listed: the draw is the free value `Config.freeByte` (log 4). -/
  bytes : List Byte
  /-- How many draws were made, the index of the free values (log 5). -/
  draws : Nat
  deriving DecidableEq, Repr

/-- Memory as a list of (address, byte) cells; an address that is not listed reads as its reset contents (log 10). -/
abbrev Memory := List Host.Cell

/-- The display plane P: column x of 64, row y of 32 (R25). -/
abbrev Plane := Vector (Vector Bool 32) 64

/-- The state of the machine (R13). -/
structure State where
  /-- V0..VF (R14). -/
  v : Vector Byte 16
  /-- I, the index register, an absolute address (R16). -/
  i : Word
  /-- PC, program-relative: PC = p designates absolute address LOAD_BASE + p (R17). -/
  pc : Word
  /-- DT, the delay timer (R19). -/
  dt : Byte
  /-- ST, the sound timer (R20). -/
  st : Byte
  /-- SP, the number of call-stack entries in use (R21). -/
  sp : Byte
  /-- S[0..15], the call stack (R21). -/
  stack : Vector Word 16
  /-- M, the memory (R24, R34). -/
  mem : Memory
  /-- P, the display plane held by the Display Sink (R25). -/
  display : Plane
  /-- SEQ, the sequencer state (R27). -/
  seq : Seq
  /-- The model's own: the host's coming moves and answers (log 2 to 5). -/
  host : HostInputs
  deriving DecidableEq, Repr

/-- Why a step answers no next state. The faults of the spec are none of these: they are next states with
SEQ = Halted (R73, R133; log 1). -/
inductive Fault where
  /-- A step from Halted: "no step is enabled" (R76). Raised by the sequencer. Safe: the machine stands still for good. -/
  | halted (reason : HaltReason)
  /-- The host reports a key although no key is awaited, against its duty (R146: "report only during AwaitKey"). Raised by
  the sequencer. Safe: the spec has no such step (log 6). -/
  | keyReportNotAwaited (k : Key)
  /-- CALL or RET with SP above STACK_DEPTH, against the invariant of R21. Raised by push and pop. Safe: no run reaches
  such a state (log 8). -/
  | stackPointerOutOfRange (sp : Byte)
  deriving DecidableEq, Repr

/-- Why there is no run, or no meaning. -/
inductive Refusal where
  /-- An instruction without a meaning in this model; no arm of exec answers it. Safe. -/
  | notModelled (mnemonic : String)
  /-- LoadError: the image is empty or longer than MEM_SIZE - LOAD_BASE bytes (R130, R151). Raised by the load. Safe: "the
  core never starts". -/
  | loadError (length : Nat)
  deriving DecidableEq, Repr

/-- The host with nothing scripted. DESIGN CHOICE, log 2 to 5. -/
def HostInputs.reset : HostInputs :=
  { moves := [], keys := [], bytes := [], draws := 0 }

/-- The state after reset (R31, R150), before a program is loaded: memory holds the glyph table and zeros, which is what
unlisted addresses read as (R152; log 10, 12). -/
def State.reset : State :=
  { v := Vector.replicate 16 0x00#8
    i := 0x0000#16
    pc := 0x0000#16
    dt := 0x00#8
    st := 0x00#8
    sp := 0x00#8
    stack := Vector.replicate 16 0x0000#16
    mem := []
    display := Vector.replicate 64 (Vector.replicate 32 false)
    seq := .run
    host := HostInputs.reset }

/-! ### One update per field -/

/-- Replace the register file. -/
def State.withV (s : State) (a : Vector Byte 16) : State := { s with v := a }

/-- Replace I. -/
def State.withI (s : State) (a : Word) : State := { s with i := a }

/-- Replace PC. -/
def State.withPc (s : State) (a : Word) : State := { s with pc := a }

/-- Replace DT. -/
def State.withDt (s : State) (a : Byte) : State := { s with dt := a }

/-- Replace ST. -/
def State.withSt (s : State) (a : Byte) : State := { s with st := a }

/-- Replace SP. -/
def State.withSp (s : State) (a : Byte) : State := { s with sp := a }

/-- Replace the call-stack entries. -/
def State.withStack (s : State) (a : Vector Word 16) : State := { s with stack := a }

/-- Replace the memory. -/
def State.withMem (s : State) (a : Memory) : State := { s with mem := a }

/-- Replace the display plane. -/
def State.withDisplay (s : State) (a : Plane) : State := { s with display := a }

/-- Replace the sequencer state. -/
def State.withSeq (s : State) (a : Seq) : State := { s with seq := a }

/-- Replace the host's inputs. -/
def State.withHost (s : State) (a : HostInputs) : State := { s with host := a }

end Sys2Proof.Machine
end

