-- ==== Sys2Proof/Machine/Params.lean ====
section
/-! DEFINITION. The parameters of spec/00_scope.md rule R6 that stand in the meanings, each at the spec's default (log 11).
They stand in this folder, not in Config.lean, so that a repair can set them otherwise. -/

namespace Sys2Proof.Machine

/-- LOAD_BASE: the absolute address of the first program byte and the rebase offset (R6). -/
abbrev loadBase : Nat := 0x200

/-- GLYPH_COUNT: glyphs in the font (R6). -/
abbrev glyphCount : Nat := 16

/-- GLYPH_BYTES: bytes per glyph (R6). -/
abbrev glyphBytes : Nat := 5

/-- FONT_BASE: the absolute address of glyph 0 (R6; the spec's decision D8). -/
abbrev fontBase : Nat := 0x1B0

/-- FONT: the glyph table in the order 0..F, five bytes a glyph (R153; bytes from general knowledge, G5). -/
def font : List Byte :=
  [0xF0#8, 0x90#8, 0x90#8, 0x90#8, 0xF0#8] ++
  [0x20#8, 0x60#8, 0x20#8, 0x20#8, 0x70#8] ++
  [0xF0#8, 0x10#8, 0xF0#8, 0x80#8, 0xF0#8] ++
  [0xF0#8, 0x10#8, 0xF0#8, 0x10#8, 0xF0#8] ++
  [0x90#8, 0x90#8, 0xF0#8, 0x10#8, 0x10#8] ++
  [0xF0#8, 0x80#8, 0xF0#8, 0x10#8, 0xF0#8] ++
  [0xF0#8, 0x80#8, 0xF0#8, 0x90#8, 0xF0#8] ++
  [0xF0#8, 0x10#8, 0x20#8, 0x40#8, 0x40#8] ++
  [0xF0#8, 0x90#8, 0xF0#8, 0x90#8, 0xF0#8] ++
  [0xF0#8, 0x90#8, 0xF0#8, 0x10#8, 0xF0#8] ++
  [0xF0#8, 0x90#8, 0xF0#8, 0x90#8, 0x90#8] ++
  [0xE0#8, 0x90#8, 0xE0#8, 0x90#8, 0xE0#8] ++
  [0xF0#8, 0x80#8, 0x80#8, 0x80#8, 0xF0#8] ++
  [0xE0#8, 0x90#8, 0x90#8, 0x90#8, 0xE0#8] ++
  [0xF0#8, 0x80#8, 0xF0#8, 0x80#8, 0xF0#8] ++
  [0xF0#8, 0x80#8, 0xF0#8, 0x80#8, 0x80#8]

/-- ODD_PC_POLICY (R6; the spec's decision D4). -/
abbrev oddPcPolicy : Config.OddPcPolicy := .fault

/-- KEY_RANGE_POLICY (R6; the spec's decision D18). -/
abbrev keyRangePolicy : Config.KeyRangePolicy := .fault

/-- What an address reads as when nothing has been written to it: the reset contents of memory, the glyph table at
FONT_BASE and 0x00 elsewhere (R43, R150, R152; log 10). -/
def initialByte (a : Nat) : Byte :=
  if fontBase ≤ a ∧ a < fontBase + font.length then font.getD (a - fontBase) 0x00#8 else 0x00#8

end Sys2Proof.Machine
end

