-- ==== Sys2Proof/Machine/Ops.lean ====
section
/-! DEFINITION. The primitives of spec/00_scope.md rule R10: registers, memory, the call stack, the Display Sink, the
host's draws, the fetch, the ways an instruction ends, and the entry into a fault. -/

namespace Sys2Proof.Machine

/-- What an instruction or a step answers. -/
abbrev Result := Host.Outcome State Fault Refusal

/-! ### Registers (R14, R15) -/

/-- `V[x]`. -/
def State.getV (s : State) (x : Reg) : Byte := s.v[x.toNat]'x.isLt

/-- `V[x] <- b`. -/
def State.setV (s : State) (x : Reg) (b : Byte) : State := s.withV (s.v.set x.toNat b x.isLt)

/-- The register file from index k upwards takes the listed bytes: `for i: V[k + i] <- b[i]` (R114). -/
def State.setVFrom (s : State) : Nat → List Byte → State
  | _, [] => s
  | k, b :: bs => (s.setV (BitVec.ofNat 4 k) b).setVFrom (k + 1) bs

/-! ### Memory (R34 to R37) -/

/-- The byte at an address: the listed one, else the reset contents (log 10). -/
def Memory.read : Memory → Nat → Byte
  | [], a => initialByte a
  | (a', b') :: m, a => if a' = a then b' else Memory.read m a

/-- Put a cell in front of the first cell with a larger address. -/
def Memory.insertCell (a : Nat) (b : Byte) : Memory → Memory
  | [] => [(a, b)]
  | c :: m => if a < c.1 then (a, b) :: c :: m else c :: Memory.insertCell a b m

/-- Store one byte: drop what the address holds, and list the byte unless it is what an unlisted address reads as. -/
def Memory.write (m : Memory) (a : Nat) (b : Byte) : Memory :=
  if b = initialByte a then m.filter (fun c => c.1 ≠ a)
  else Memory.insertCell a b (m.filter (fun c => c.1 ≠ a))

/-- Store bytes at rising addresses. -/
def Memory.writeBytes (m : Memory) : Nat → List Byte → Memory
  | _, [] => m
  | a, b :: bs => Memory.writeBytes (Memory.write m a b) (a + 1) bs

/-- Addresses strictly rise. -/
def Memory.rising : Memory → Bool
  | [] => true
  | [_] => true
  | c :: d :: m => decide (c.1 < d.1) && Memory.rising (d :: m)

/-- The canonical form: addresses strictly rise, and no cell holds what an unlisted address reads as. -/
def Memory.wf (m : Memory) : Bool := Memory.rising m && m.all (fun c => c.2 ≠ initialByte c.1)

/-- Every listed address exists (R34: addresses 0..MEM_SIZE-1). -/
def Memory.bounded (m : Memory) : Bool := m.all (fun c => decide (c.1 < Config.memSize))

/-- The byte of memory at an address. -/
def State.readByte (s : State) (a : Nat) : Byte := Memory.read s.mem a

/-- The lowest of the n addresses from `a` upwards that is at or above MEM_SIZE (R36). -/
def firstOutOfBounds (a n : Nat) : Option Nat :=
  ((List.range n).map (a + ·)).find? (fun k => decide (Config.memSize ≤ k))

/-- `MemRead(addr, n)`: every address is checked before any byte is read (R36). -/
def State.memRead (s : State) (a n : Nat) : Except HaltReason (List Byte) :=
  match firstOutOfBounds a n with
  | some k => .error (.outOfBounds k)
  | none => .ok ((List.range n).map fun k => s.readByte (a + k))

/-- `MemRead16(addr)`: the big-endian word (R37). -/
def State.memRead16 (s : State) (a : Nat) : Except HaltReason Word :=
  match firstOutOfBounds a 2 with
  | some k => .error (.outOfBounds k)
  | none => .ok (bigEndian (s.readByte a) (s.readByte (a + 1)))

/-- `MemWrite(addr, n, bytes)`: every address is checked before any byte is written (R36). -/
def State.memWrite (s : State) (a : Nat) (bytes : List Byte) : Except HaltReason State :=
  match firstOutOfBounds a bytes.length with
  | some k => .error (.outOfBounds k)
  | none => .ok (s.withMem (Memory.writeBytes s.mem a bytes))

/-! ### Fault entry and the ways an instruction ends (R71 to R73, R133) -/

/-- `raise`: SEQ becomes Halted(reason, info) and nothing else changes (R73, R133). Every fault of the spec enters here.
There is no handler to go to and no return from it (R133, R134), so no operation stands beside it. -/
def raise (r : HaltReason) (s : State) : Result := .next (s.withSeq (.halted r))

/-- Done: the sequencer adds 2 to the PC (R71, R72). -/
def done (s : State) : Result := .next (s.withPc (s.pc + 2#16))

/-- Jump(t): the PC becomes t (R72). -/
def jump (t : Word) (s : State) : Result := .next (s.withPc t)

/-- Suspend(x): SEQ becomes AwaitKey(x), the PC stays (R72, R119). -/
def suspend (x : Reg) (s : State) : Result := .next (s.withSeq (.awaitKey x))

/-- A skip: Jump(PC + 4) when the condition holds, else Done (R71; 42_skip.md). -/
def skipIf (c : Bool) (s : State) : Result := .next (s.withPc (if c then s.pc + 4#16 else s.pc + 2#16))

/-- Go on with a checked value, or raise the check's fault on the state `s` from before the instruction, so that the fault
is precise (R73). -/
def State.orHalt {α : Type} (s : State) (r : Except HaltReason α) (k : α → Result) : Result :=
  match r with
  | .ok a => k a
  | .error e => raise e s

/-! ### The call stack (R21 to R23) -/

/-- `push(v)` and go on with the state after it; StackOverflow(PC) on a full stack (R22). SP above STACK_DEPTH, which
R21's invariant rules out, stops by name (log 8). -/
def State.push (s : State) (val : Word) (k : State → Result) : Result :=
  if s.sp.toNat = Config.stackDepth then raise (.stackOverflow s.pc) s
  else if h : s.sp.toNat < 16 then k ((s.withStack (s.stack.set s.sp.toNat val h)).withSp (s.sp + 1#8))
  else .fault (.stackPointerOutOfRange s.sp)

/-- `pop()` and go on with the popped entry, which is not cleared; StackUnderflow(PC) on an empty stack (R23). SP above
STACK_DEPTH stops by name (log 8). -/
def State.pop (s : State) (k : Word → State → Result) : Result :=
  if s.sp.toNat = 0 then raise (.stackUnderflow s.pc) s
  else if h : s.sp.toNat - 1 < 16 then k (s.stack[s.sp.toNat - 1]'h) (s.withSp (s.sp - 1#8))
  else .fault (.stackPointerOutOfRange s.sp)

/-! ### The Display Sink (R140, R141) -/

/-- `P[px][py]`. -/
def Plane.get (p : Plane) (px : Fin 64) (py : Fin 32) : Bool := (p[px.val]'px.isLt)[py.val]'py.isLt

/-- `SetPixel(px, py, b)`: the sink XORs the cell with b and answers whether a lit pixel was turned off (R140). -/
def Plane.setPixel (p : Plane) (px : Fin 64) (py : Fin 32) (b : Bool) : Bool × Plane :=
  (p.get px py && b, p.set px.val ((p[px.val]'px.isLt).set py.val (p.get px py ^^ b) py.isLt) px.isLt)

/-- `SetPixel(.., .., 1)` on each listed cell in turn, collecting whether any call collided (R117). -/
def Plane.drawPixels : List (Fin 64 × Fin 32) → Bool × Plane → Bool × Plane
  | [], cp => cp
  | (px, py) :: rest, (c, p) =>
    Plane.drawPixels rest (c || (p.setPixel px py true).1, (p.setPixel px py true).2)

/-- `ClearDisplay()`: every cell 0 (R141). -/
def Plane.clear : Plane := Vector.replicate 64 (Vector.replicate 32 false)

/-- `P[px][py]` of the state. -/
def State.pixel (s : State) (px : Fin 64) (py : Fin 32) : Bool := s.display.get px py

/-! ### The host's draws (R142, R145) -/

/-- The key map that answers the coming is_down query: the scripted one, else the free value (log 3). -/
def State.keyMap (s : State) : BitVec 16 :=
  match s.host.keys with
  | m :: _ => m
  | [] => Config.freeKeys s.host.draws

/-- `KeyDown(k)`, the Input Source's answer at this instruction (R142). -/
def State.keyDown (s : State) (k : Key) : Bool := s.keyMap.getLsbD k.toNat

/-- The host after it has answered an is_down query. -/
def State.afterKeyQuery (s : State) : State :=
  s.withHost { s.host with keys := s.host.keys.tail, draws := s.host.draws + 1 }

/-- `RandomByte()`: the scripted draw, else the free value (R145; log 4). -/
def State.randomByte (s : State) : Byte :=
  match s.host.bytes with
  | b :: _ => b
  | [] => Config.freeByte s.host.draws

/-- The random source after a draw. -/
def State.afterRandomByte (s : State) : State :=
  s.withHost { s.host with bytes := s.host.bytes.tail, draws := s.host.draws + 1 }

/-! ### Fetch (R68) -/

/-- `fetch()`: MisalignedFetch at an odd PC under the policy `fault`, else the word at LOAD_BASE + PC (R39, R68). -/
def State.fetch (odd : Config.OddPcPolicy) (s : State) : Except HaltReason Word :=
  if s.pc.getLsbD 0 = true ∧ odd = .fault then .error (.misalignedFetch s.pc)
  else s.memRead16 (loadBase + s.pc.toNat)

/-- Execute Unknown: always UnknownOpcode(w, PC) (R70, R129). -/
def execUnknown (w : Word) (s : State) : Result := raise (.unknownOpcode w s.pc) s

end Sys2Proof.Machine
end

