-- ==== Sys2Proof/Machine/Flags.lean ====
section
/-! DEFINITION. The values VF receives as the flag (spec/10_state.md rule R15, spec/43_alu.md rules R102 to R106,
spec/45_display.md rule R117). VF is the only flag (R30). -/

namespace Sys2Proof.Machine

/-- A flag as the byte VF holds: 0x01 or 0x00. -/
def flagByte (c : Bool) : Byte := if c then 0x01#8 else 0x00#8

/-- ADD Vx,Vy: carry out of bit 7, the full sum above 0xFF (R102). -/
def carryFlag (a b : Byte) : Byte := flagByte (decide (0xFF < a.toNat + b.toNat))

/-- SUB (and SUBN with the operands exchanged): not borrow, a ≥ b (R103, R105). -/
def notBorrowFlag (a b : Byte) : Byte := flagByte (decide (b.toNat ≤ a.toNat))

/-- SHR: the bit shifted out, bit 0 (R104). -/
def shiftedOutRight (a : Byte) : Byte := flagByte (a.getLsbD 0)

/-- SHL: the bit shifted out, bit 7 (R106). -/
def shiftedOutLeft (a : Byte) : Byte := flagByte (a.getLsbD 7)

/-- DRW: at least one lit pixel was turned off (R117). -/
def collisionFlag (c : Bool) : Byte := flagByte c

/-- Write a result and then the flag: Vx first and VF second, so that with x = F the flag stands (R95). -/
def State.setVAndFlag (s : State) (x : Reg) (result flag : Byte) : State := (s.setV x result).setV Reg.vF flag

end Sys2Proof.Machine
end

