-- ==== Sys2Proof/Machine/Alu.lean ====
section
/-! DEFINITION. The register loads and the ALU of spec/43_alu.md. Every source is read before any register is written
(R94); the flag-writing instructions write Vx first and VF second (R95). -/

namespace Sys2Proof.Machine

/-- LD Vx,byte (R96). -/
def execLdVxByte (x : Reg) (kk : Byte) (s : State) : Result := done (s.setV x kk)

/-- ADD Vx,byte: no carry is written (R97). -/
def execAddVxByte (x : Reg) (kk : Byte) (s : State) : Result := done (s.setV x (s.getV x + kk))

/-- LD Vx,Vy (R98). -/
def execLdVxVy (x y : Reg) (s : State) : Result := done (s.setV x (s.getV y))

/-- OR Vx,Vy: VF unchanged unless x = F (R99). -/
def execOrVxVy (x y : Reg) (s : State) : Result := done (s.setV x (s.getV x ||| s.getV y))

/-- AND Vx,Vy: VF unchanged unless x = F (R100). -/
def execAndVxVy (x y : Reg) (s : State) : Result := done (s.setV x (s.getV x &&& s.getV y))

/-- XOR Vx,Vy: VF unchanged unless x = F (R101). -/
def execXorVxVy (x y : Reg) (s : State) : Result := done (s.setV x (s.getV x ^^^ s.getV y))

/-- ADD Vx,Vy: VF is the carry out (R102). -/
def execAddVxVy (x y : Reg) (s : State) : Result :=
  done (s.setVAndFlag x (s.getV x + s.getV y) (carryFlag (s.getV x) (s.getV y)))

/-- SUB Vx,Vy: VF is not borrow (R103). -/
def execSubVxVy (x y : Reg) (s : State) : Result :=
  done (s.setVAndFlag x (s.getV x - s.getV y) (notBorrowFlag (s.getV x) (s.getV y)))

/-- SHR Vx: V[y] is not read; VF is the old bit 0 (R104). -/
def execShrVx (x _y : Reg) (s : State) : Result :=
  done (s.setVAndFlag x (s.getV x >>> 1) (shiftedOutRight (s.getV x)))

/-- SUBN Vx,Vy: VF is not borrow of V[y] - V[x] (R105). -/
def execSubnVxVy (x y : Reg) (s : State) : Result :=
  done (s.setVAndFlag x (s.getV y - s.getV x) (notBorrowFlag (s.getV y) (s.getV x)))

/-- SHL Vx: V[y] is not read; VF is the old bit 7 (R106). -/
def execShlVx (x _y : Reg) (s : State) : Result :=
  done (s.setVAndFlag x (s.getV x <<< 1) (shiftedOutLeft (s.getV x)))

/-- RND Vx,byte: a draw of the host masked by the immediate (R107, R145). -/
def execRndVxByte (x : Reg) (kk : Byte) (s : State) : Result :=
  done (s.afterRandomByte.setV x (s.randomByte &&& kk))

end Sys2Proof.Machine
end

