-- ==== Sys2Proof/Machine/Operands.lean ====
section
/-! DEFINITION. What the instructions compute from their operands before they act: jump targets, key indexes, glyph
addresses, decimal digits, register blocks and sprite pixels. -/

namespace Sys2Proof.Machine

/-- `rebase(a)`: an absolute target address to a PC value, by one subtraction of LOAD_BASE; OutOfBounds(a) below it (R81). -/
def rebase (a : Nat) : Except HaltReason Word :=
  if a < loadBase then .error (.outOfBounds a) else .ok (BitVec.ofNat 16 (a - loadBase))

/-- The sum of JP V0,addr in full: nnn + V0 with no wrap and no 12-bit mask (R85). -/
def jumpV0Sum (nnn : Addr) (v0 : Byte) : Nat := nnn.toNat + v0.toNat

/-- `key_index(v)`: the key code, OutOfBounds(v) above 15 under the policy `fault`, the low nibble under `mask` (R91). -/
def keyIndex (policy : Config.KeyRangePolicy) (v : Byte) : Except HaltReason Key :=
  if v.toNat < Config.numKeys then .ok (BitVec.ofNat 4 v.toNat)
  else
    match policy with
    | .fault => .error (.outOfBounds v.toNat)
    | .mask => .ok (v.extractLsb' 0 4)

/-- `digit(Vx)`: the low nibble (R111). -/
def digit (v : Byte) : Nibble := v.extractLsb' 0 4

/-- The absolute address of the glyph of a hex digit: FONT_BASE + 5 d (R111). -/
def glyphAddress (v : Byte) : Word := BitVec.ofNat 16 (fontBase + glyphBytes * (digit v).toNat)

/-- The decimal digits of a byte: hundreds, tens, ones (R112). -/
def bcdDigits (v : Byte) : List Byte :=
  [BitVec.ofNat 8 (v.toNat / 100), BitVec.ofNat 8 (v.toNat / 10 % 10), BitVec.ofNat 8 (v.toNat % 10)]

/-- `[V[0], V[1], ..., V[x]]` (R113). -/
def State.firstRegs (s : State) (x : Reg) : List Byte :=
  (List.range (x.toNat + 1)).map fun k => s.getV (BitVec.ofNat 4 k)

/-- The cells that one row byte of a sprite sets, columns 0 to 7 from bit 7 to bit 0, wrapped per pixel (R115, R117). -/
def rowPixels (x0 : Byte) (row : Nat) (b : Byte) : List (Fin 64 × Fin 32) :=
  ((List.range 8).filter fun col => b.getLsbD (7 - col)).map fun col =>
    (Fin.ofNat 64 (x0.toNat + col), Fin.ofNat 32 row)

/-- The cells that a sprite sets, row by row from screen row `row` downwards (R115, R117). -/
def spritePixels (x0 : Byte) : Nat → List Byte → List (Fin 64 × Fin 32)
  | _, [] => []
  | row, b :: bs => rowPixels x0 row b ++ spritePixels x0 (row + 1) bs

end Sys2Proof.Machine
end

