-- ==== Sys2Proof/Machine/Display.lean ====
section
/-! DEFINITION. The display instructions of spec/45_display.md: CLS and DRW. -/

namespace Sys2Proof.Machine

/-- CLS: every cell of the plane 0 (R116). -/
def execCls (s : State) : Result := done (s.withDisplay Plane.clear)

/-- DRW Vx,Vy,n: the sprite's bytes are read first, V[x] and V[y] before VF is written; VF is the collision (R117). -/
def execDrwVxVyN (x y : Reg) (n : Nibble) (s : State) : Result :=
  s.orHalt (s.memRead s.i.toNat n.toNat) fun rows =>
    let drawn := Plane.drawPixels (spritePixels (s.getV x) (s.getV y).toNat rows) (false, s.display)
    done ((s.withDisplay drawn.2).setV Reg.vF (collisionFlag drawn.1))

end Sys2Proof.Machine
end

