-- ==== Sys2Proof/Machine/Flow.lean ====
section
/-! DEFINITION. The control transfers of spec/41_flow.md: RET, JP, CALL and JP V0. They write the PC, so no +2 follows (R71, R79). -/

namespace Sys2Proof.Machine

/-- RET: pop the PC of the matching CALL and resume two bytes after it (R82). -/
def execRet (s : State) : Result := s.pop fun v s' => jump (v + 2#16) s'

/-- JP addr (R83). -/
def execJpAddr (nnn : Addr) (s : State) : Result :=
  s.orHalt (rebase nnn.toNat) fun t => jump t s

/-- CALL addr: the stack is checked first, then the target; the CALL's own PC is pushed (R75, R84). -/
def execCallAddr (nnn : Addr) (s : State) : Result :=
  if s.sp.toNat = Config.stackDepth then raise (.stackOverflow s.pc) s
  else s.orHalt (rebase nnn.toNat) fun t => s.push s.pc fun s' => jump t s'

/-- JP V0,addr: the sum in full, rebased once (R85). -/
def execJpV0Addr (nnn : Addr) (s : State) : Result :=
  s.orHalt (rebase (jumpV0Sum nnn (s.getV Reg.v0))) fun t => jump t s

end Sys2Proof.Machine
end

