-- ==== Sys2Proof/Machine/Index.lean ====
section
/-! DEFINITION. The index register and memory transfers of spec/44_index_memory.md. No instruction here changes I by an
access; every address is checked before any byte moves (spec/20_memory.md rule R36). -/

namespace Sys2Proof.Machine

/-- LD I,addr: nnn is not rebased (R109). -/
def execLdIAddr (nnn : Addr) (s : State) : Result := done (s.withI (nnn.zeroExtend 16))

/-- ADD I,Vx: I wraps at 16 bits, no flag (R110). -/
def execAddIVx (x : Reg) (s : State) : Result := done (s.withI (s.i + (s.getV x).zeroExtend 16))

/-- LD F,Vx: I points at the glyph of the low nibble of V[x] (R111). -/
def execLdFVx (x : Reg) (s : State) : Result := done (s.withI (glyphAddress (s.getV x)))

/-- LD B,Vx: the three decimal digits at I, I + 1, I + 2 (R112). -/
def execLdBVx (x : Reg) (s : State) : Result :=
  s.orHalt (s.memWrite s.i.toNat (bcdDigits (s.getV x))) done

/-- LD [I],Vx: V0..Vx to memory from I upwards (R113). -/
def execLdMemVx (x : Reg) (s : State) : Result :=
  s.orHalt (s.memWrite s.i.toNat (s.firstRegs x)) done

/-- LD Vx,[I]: V0..Vx from memory from I upwards (R114). -/
def execLdVxMem (x : Reg) (s : State) : Result :=
  s.orHalt (s.memRead s.i.toNat (x.toNat + 1)) fun bytes => done (s.setVFrom 0 bytes)

end Sys2Proof.Machine
end

