-- ==== Sys2Proof/Machine/Skip.lean ====
section
/-! DEFINITION. The conditional skips of spec/42_skip.md: SE, SNE, SKP and SKNP. -/

namespace Sys2Proof.Machine

/-- SE Vx,byte (R87). -/
def execSeVxByte (x : Reg) (kk : Byte) (s : State) : Result := skipIf (s.getV x == kk) s

/-- SNE Vx,byte (R88). -/
def execSneVxByte (x : Reg) (kk : Byte) (s : State) : Result := skipIf (s.getV x != kk) s

/-- SE Vx,Vy (R89). -/
def execSeVxVy (x y : Reg) (s : State) : Result := skipIf (s.getV x == s.getV y) s

/-- SNE Vx,Vy (R90). -/
def execSneVxVy (x y : Reg) (s : State) : Result := skipIf (s.getV x != s.getV y) s

/-- A key test: the key index of V[x] under the policy, one is_down query, and a skip when the answer is `wanted` (R91 to R93).
The query is a draw of the host, so the host's inputs advance. -/
def keyTest (policy : Config.KeyRangePolicy) (wanted : Bool) (x : Reg) (s : State) : Result :=
  s.orHalt (keyIndex policy (s.getV x)) fun k => skipIf (s.keyDown k == wanted) s.afterKeyQuery

/-- SKP Vx (R92). -/
def execSkpVx (x : Reg) (s : State) : Result := keyTest keyRangePolicy true x s

/-- SKNP Vx (R93). -/
def execSknpVx (x : Reg) (s : State) : Result := keyTest keyRangePolicy false x s

end Sys2Proof.Machine
end

