-- ==== Sys2Proof/Machine/Timer.lean ====
section
/-! DEFINITION. The timer and key-wait instructions of spec/46_timers_keys.md. The host's steps (tick, key delivery,
terminate) stand in Sys2Proof/Machine/HostSteps.lean. -/

namespace Sys2Proof.Machine

/-- LD Vx,DT (R118). -/
def execLdVxDt (x : Reg) (s : State) : Result := done (s.setV x s.dt)

/-- LD Vx,K: suspend; the key-delivery step completes it (R119, R123). -/
def execLdVxK (x : Reg) (s : State) : Result := suspend x s

/-- LD DT,Vx (R120). -/
def execLdDtVx (x : Reg) (s : State) : Result := done (s.withDt (s.getV x))

/-- LD ST,Vx (R121). -/
def execLdStVx (x : Reg) (s : State) : Result := done (s.withSt (s.getV x))

end Sys2Proof.Machine
end

