-- ==== Sys2Proof/Machine/HostSteps.lean ====
section
/-! DEFINITION. The steps the host takes (spec/40_fetch_decode.md rule R67): the timer tick, the key delivery and
terminate; and the load that precedes the first step (spec/70_reset_and_hazards.md rules R150 to R152). -/

namespace Sys2Proof.Machine

/-- A timer after a tick: one less while non-zero (R122). -/
def tickTimer (t : Byte) : Byte := if t = 0x00#8 then t else t - 0x01#8

/-- `tick()`: both timers take the tick (R122). -/
def tickStep (s : State) : Result := .next ((s.withDt (tickTimer s.dt)).withSt (tickTimer s.st))

/-- `deliver(k)`: V[x] takes the key code, the PC its +2, and the machine runs on (R123). -/
def deliverStep (x : Reg) (k : Key) (s : State) : Result :=
  .next (((s.setV x (k.zeroExtend 8)).withPc (s.pc + 2#16)).withSeq .run)

/-- Terminate: SEQ becomes Halted(Terminated, none) and nothing else changes (R136). -/
def terminateStep (s : State) : Result := raise .terminated s

/-- The longest program: MEM_SIZE - LOAD_BASE bytes (R6, R151). -/
abbrev maxProgram : Nat := Config.memSize - loadBase

/-- `load(bytes)` on the reset state: the program at LOAD_BASE, then the glyph table at FONT_BASE; an empty or too long image
is a LoadError and the core never starts (R130, R150, R151). A program comes into the machine only this way (log 12). -/
def load (bytes : List Byte) : Result :=
  if bytes.length = 0 ∨ maxProgram < bytes.length then .refused (.loadError bytes.length)
  else .next (State.reset.withMem
    (Memory.writeBytes (Memory.writeBytes State.reset.mem loadBase bytes) fontBase font))

end Sys2Proof.Machine
end

