-- ==== Sys2Proof/Machine/Sequencer.lean ====
section
/-! DEFINITION. The sequencer of spec/40_fetch_decode.md rules R67 to R78: the instruction step, and which kind of step
comes next. Which move the host makes is read from `host.moves` (log 2). -/

namespace Sys2Proof.Machine

/-- Execute what was decoded: an instruction, or Unknown, which raises UnknownOpcode (R70, R72). -/
def execVariant (v : Variant) (s : State) : Result :=
  match v with
  | .instr i => exec i s
  | .unknown w => execUnknown w s

/-- The instruction step, whole: fetch, decode, execute (R72). A fault of the fetch ends the step (R73). -/
def instructionStep (odd : Config.OddPcPolicy) (s : State) : Result :=
  s.orHalt (s.fetch odd) fun w => execVariant (decode w) s

/-- The state with the first of the host's moves taken off the list. -/
def State.dropMove (s : State) : State := s.withHost { s.host with moves := s.host.moves.tail }

/-- A step with SEQ = Run (R67): the host's move, or the sequencer's turn. A key report is no step of Run (R67, R146; log 6). -/
def runStep (odd : Config.OddPcPolicy) (s : State) : Result :=
  match s.host.moves with
  | [] => instructionStep odd s
  | .pass :: _ => instructionStep odd s.dropMove
  | .tick :: _ => tickStep s.dropMove
  | .terminate :: _ => terminateStep s.dropMove
  | .key k :: _ => .fault (.keyReportNotAwaited k)

/-- A step with SEQ = AwaitKey(x) (R67, R124, R149): the host's move; the sequencer executes nothing, so when the host does
nothing either, the state stays as it is (log 7). -/
def awaitStep (x : Reg) (s : State) : Result :=
  match s.host.moves with
  | [] => .next s
  | .pass :: _ => .next s.dropMove
  | .tick :: _ => tickStep s.dropMove
  | .terminate :: _ => terminateStep s.dropMove
  | .key k :: _ => deliverStep x k s.dropMove

/-- One step of the machine (R67). From Halted no step is enabled (R76; log 1). -/
def turn (odd : Config.OddPcPolicy) (s : State) : Result :=
  match s.seq with
  | .run => runStep odd s
  | .awaitKey x => awaitStep x s
  | .halted r => .fault (.halted r)

/-- The state in which the next step fetches the word `w`: the word stands where PC points (R68), SEQ = Run, and the host
leaves the turn to the sequencer. A PC whose two bytes are not inside memory can hold no instruction: memory stays. -/
def State.placeWord (s : State) (w : Word) : State :=
  let ready := (s.withSeq .run).withHost { s.host with moves := [] }
  if loadBase + s.pc.toNat + 1 < Config.memSize then
    ready.withMem (Memory.writeBytes s.mem (loadBase + s.pc.toNat) [highByte w, lowByte w])
  else ready

end Sys2Proof.Machine
end

