-- ==== Sys2Proof/Machine/Step.lean ====
section
/-! DEFINITION. The machine's step under the model's parameters (spec/40_fetch_decode.md rule R67), and the placing of one
instruction where the next step fetches it. -/

namespace Sys2Proof.Machine

/-- One step of the machine. -/
def step (s : State) : Host.Outcome State Fault Refusal := turn oddPcPolicy s

/-- `s` with the instruction whose bits are `w` (numbered as spec/opcode_table.json numbers them, bits at and above `nbits`
zero) stored where `step` fetches its next instruction, and the sequencer's turn next (log 12). -/
def State.withFetchWord (s : State) (nbits w : Nat) : State :=
  s.placeWord (BitVec.ofNat 16 (w % 2 ^ nbits))

end Sys2Proof.Machine
end

