-- ==== Sys2Proof/Safety.lean ====
section
/-! DEFINITION. The terms in which statements about runs are made: the machine's invariant, what each instruction may
change (the access table of spec/10_state.md rule R33), and the parked state of spec/40_fetch_decode.md rule R77. -/

namespace Sys2Proof.Machine

/-- The word of memory that a PC value designates: the big-endian word at LOAD_BASE + PC (R17, R37). -/
def State.wordAt (s : State) (pc : Word) : Word :=
  bigEndian (s.readByte (loadBase + pc.toNat)) (s.readByte (loadBase + pc.toNat + 1))

/-- A PC value that a fetch accepts under ODD_PC_POLICY = fault: even, and at most 0xDFE (R18, R68). -/
def fetchable (pc : Word) : Prop := pc.toNat % 2 = 0 ∧ pc.toNat ≤ 0xDFE

/-- The invariant that every step keeps: memory is canonical and inside the address space; SP is at most STACK_DEPTH (R21);
PC and the stack entries keep the bounds of R18; a key wait stands at the LD Vx,K it suspends (R27). -/
structure State.Inv (s : State) : Prop where
  memWf : Memory.wf s.mem = true
  memBounded : Memory.bounded s.mem = true
  spBound : s.sp.toNat ≤ 16
  pcBound : s.pc.toNat ≤ 0xEFE
  stackBound : ∀ k : Fin 16, fetchable s.stack[k.val]
  awaited : ∀ x, s.seq = .awaitKey x → fetchable s.pc ∧ decode (s.wordAt s.pc) = .instr (.ldVxK x)

/-- What an instruction may change besides PC and SEQ. -/
structure Footprint where
  /-- The registers it may write. -/
  regs : Reg → Bool := fun _ => false
  /-- It may write I. -/
  i : Bool := false
  /-- It may write DT. -/
  dt : Bool := false
  /-- It may write ST. -/
  st : Bool := false
  /-- It may write SP and the stack entries. -/
  stack : Bool := false
  /-- The addresses it may store to. -/
  bytes : Nat → Bool := fun _ => false
  /-- It may change the display plane. -/
  display : Bool := false
  /-- It takes a draw of the host. -/
  draws : Bool := false

/-- The n addresses from `a` upwards. -/
def blockFrom (a n : Nat) : Nat → Bool := fun k => decide (a ≤ k ∧ k < a + n)

/-- The writes of the access table (R33, R40): registers, VF as a flag, I, the timers, the stack, the bytes stored to and
the display plane, instruction by instruction. -/
def footprintOf (s : State) : Instr → Footprint
  | .cls => { display := true }
  | .ret => { stack := true }
  | .jpAddr _ => {}
  | .callAddr _ => { stack := true }
  | .seVxByte _ _ => {}
  | .sneVxByte _ _ => {}
  | .seVxVy _ _ => {}
  | .ldVxByte x _ => { regs := fun r => r == x }
  | .addVxByte x _ => { regs := fun r => r == x }
  | .ldVxVy x _ => { regs := fun r => r == x }
  | .orVxVy x _ => { regs := fun r => r == x }
  | .andVxVy x _ => { regs := fun r => r == x }
  | .xorVxVy x _ => { regs := fun r => r == x }
  | .addVxVy x _ => { regs := fun r => r == x || r == Reg.vF }
  | .subVxVy x _ => { regs := fun r => r == x || r == Reg.vF }
  | .shrVx x _ => { regs := fun r => r == x || r == Reg.vF }
  | .subnVxVy x _ => { regs := fun r => r == x || r == Reg.vF }
  | .shlVx x _ => { regs := fun r => r == x || r == Reg.vF }
  | .sneVxVy _ _ => {}
  | .ldIAddr _ => { i := true }
  | .jpV0Addr _ => {}
  | .rndVxByte x _ => { regs := fun r => r == x, draws := true }
  | .drwVxVyN _ _ _ => { regs := fun r => r == Reg.vF, display := true }
  | .skpVx _ => { draws := true }
  | .sknpVx _ => { draws := true }
  | .ldVxDt x => { regs := fun r => r == x }
  | .ldVxK _ => {}
  | .ldDtVx _ => { dt := true }
  | .ldStVx _ => { st := true }
  | .addIVx _ => { i := true }
  | .ldFVx _ => { i := true }
  | .ldBVx _ => { bytes := blockFrom s.i.toNat 3 }
  | .ldMemVx x => { bytes := blockFrom s.i.toNat (x.toNat + 1) }
  | .ldVxMem x => { regs := fun r => decide (r.toNat ≤ x.toNat) }

/-- From `s` to `t` nothing changed outside the footprint, PC and SEQ aside. Memory is compared byte by byte. -/
structure KeepsOutside (f : Footprint) (s t : State) : Prop where
  regs : ∀ r, f.regs r = false → t.getV r = s.getV r
  i : f.i = false → t.i = s.i
  dt : f.dt = false → t.dt = s.dt
  st : f.st = false → t.st = s.st
  stack : f.stack = false → t.sp = s.sp ∧ t.stack = s.stack
  bytes : ∀ a, f.bytes a = false → t.readByte a = s.readByte a
  display : f.display = false → ∀ px py, t.pixel px py = s.pixel px py
  draws : f.draws = false → t.host = s.host

/-- The faults that the table of R74 lets the execute phase of an instruction raise; every other instruction raises none. -/
def mayRaise (s : State) : Instr → HaltReason → Prop
  | .jpAddr nnn, r => r = .outOfBounds nnn.toNat ∧ nnn.toNat < loadBase
  | .callAddr nnn, r =>
    (r = .stackOverflow s.pc ∧ s.sp.toNat = 16) ∨
      (r = .outOfBounds nnn.toNat ∧ nnn.toNat < loadBase ∧ s.sp.toNat ≠ 16)
  | .jpV0Addr nnn, r =>
    r = .outOfBounds (nnn.toNat + (s.getV Reg.v0).toNat) ∧ nnn.toNat + (s.getV Reg.v0).toNat < loadBase
  | .ret, r => r = .stackUnderflow s.pc ∧ s.sp.toNat = 0
  | .drwVxVyN _ _ n, r => ∃ k, k < n.toNat ∧ r = .outOfBounds (s.i.toNat + k) ∧ 4096 ≤ s.i.toNat + k
  | .ldBVx _, r => ∃ k, k < 3 ∧ r = .outOfBounds (s.i.toNat + k) ∧ 4096 ≤ s.i.toNat + k
  | .ldMemVx x, r => ∃ k, k ≤ x.toNat ∧ r = .outOfBounds (s.i.toNat + k) ∧ 4096 ≤ s.i.toNat + k
  | .ldVxMem x, r => ∃ k, k ≤ x.toNat ∧ r = .outOfBounds (s.i.toNat + k) ∧ 4096 ≤ s.i.toNat + k
  | .skpVx x, r => r = .outOfBounds (s.getV x).toNat ∧ 15 < (s.getV x).toNat
  | .sknpVx x, r => r = .outOfBounds (s.getV x).toNat ∧ 15 < (s.getV x).toNat
  | _, _ => False

/-- The word `w` is the encoding of `i` and decodes to it: the "Encoding" line of an instruction's rule (R64). -/
def EncodedAs (i : Instr) (w : Word) : Prop := encode i = w ∧ decode w = .instr i

/-- The instruction completed in the ordinary way: PC + 2 and the same SEQ (R71). -/
def State.AdvancedTo (s t : State) : Prop := t.pc = s.pc + 2#16 ∧ t.seq = s.seq

/-- The machine is neither halted nor about to be: Run or AwaitKey, where ticks and terminate are enabled (R67). -/
def State.Live (s : State) : Prop := s.seq = .run ∨ ∃ x, s.seq = .awaitKey x

/-- The cell (px, py) belongs to a lit bit of the n-row sprite at I drawn at (x0, y0): with the wrapped distances
col = (px - x0) mod 64 and row = (py - y0) mod 32, col < 8, row < n and bit (7 - col) of byte I + row is 1 (R115, R117). -/
def State.spriteBit (s : State) (x0 y0 : Byte) (n : Nat) (px : Fin 64) (py : Fin 32) : Bool :=
  decide ((px.val + 256 - x0.toNat) % 64 < 8) && decide ((py.val + 256 - y0.toNat) % 32 < n) &&
    (s.readByte (s.i.toNat + (py.val + 256 - y0.toNat) % 32)).getLsbD (7 - (px.val + 256 - x0.toNat) % 64)

/-- Execute instructions one after another, whatever the PC; stop at the first that answers no next state. -/
def runInstrs : List Instr → State → Result
  | [], s => .next s
  | i :: is, s =>
    match exec i s with
    | .next t => runInstrs is t
    | .fault r => .fault r
    | .refused r => .refused r

/-- Parked at PC (R77): SEQ = Run and the word at LOAD_BASE + PC is the JP whose target rebases to PC. DESIGN CHOICE, log 17:
R77 does not say whether p may be odd; here PC is also `fetchable`, even and at most 0xDFE, since the machine's fetch at an
odd PC faults (R68). A JP to itself at an odd PC under ODD_PC_POLICY = allow is therefore not called parked. -/
def State.Parked (s : State) : Prop :=
  s.seq = .run ∧ fetchable s.pc ∧
    ∃ nnn : Addr, decode (s.wordAt s.pc) = .instr (.jpAddr nnn) ∧ nnn.toNat = loadBase + s.pc.toNat

end Sys2Proof.Machine
end

