-- ==== Sys2Proof/Certificates/Slice0/Obligations.lean ====
section
/-! DEFINITION. The statements for the provers. Each docstring names the rule or the section of spec/ it formalises, and
where a clause rests on a decision the spec marks as its own, or on a choice of this model, it says so. -/

open Sys2Proof Sys2Proof.Machine

/-! ## Encoding -/

/-- 30_encoding.md section 4: "`decode(encode(v)) = v` holds for every variant v", operands at every value; Unknown(w)
with w one of the words of R62. The sub-opcode values and the nibble written for SE and SNE are the spec's own (G1 to
G4, D11). -/
def Obligations.DecodeOfEncode : Prop :=
  ∀ v : Variant, v.wellFormed = true → decode v.encode = v

/-- 30_encoding.md section 4: "`encode(decode(w)) = w` holds for every instruction word except 5xyN and 9xyN with N ≠
0", and of those it is w with the low nibble 0 (the spec's decision D11). -/
def Obligations.EncodeOfDecode : Prop :=
  ∀ w : Word, (decode w).encode =
    if w.toNat / 0x1000 = 5 ∨ w.toNat / 0x1000 = 9 then BitVec.ofNat 16 (w.toNat / 0x10 * 0x10) else w

/-- 30_encoding.md section 4 (R62; sub-opcode values from general knowledge, G2 to G4): the words that decode to Unknown
are exactly those of the list, and Unknown carries the word itself. -/
def Obligations.UnknownWords : Prop :=
  ∀ w : Word, (decode w = .unknown w ↔ isUnknownWord w = true) ∧ (∀ w', decode w = .unknown w' → w' = w)

/-- opcode_table.json: what decodes to an instruction matches its row's mask and pattern, an Unknown word matches no
row, and no word matches two different rows. Field positions and sub-opcode values are from general knowledge (G1 to
G4), the ignored nibble of families 5 and 9 and the whole-word match of family 0 the spec's decisions D11 and D12. -/
def Obligations.DecodeFollowsTable : Prop :=
  ∀ w : Word,
    (∀ i, decode w = .instr i → w &&& i.row.mask = i.row.pattern) ∧
    (isUnknownWord w = true → ∀ i : Instr, w &&& i.row.mask ≠ i.row.pattern) ∧
    (∀ i j : Instr, w &&& i.row.mask = i.row.pattern → w &&& j.row.mask = j.row.pattern → i.row = j.row)

/-- 95_test_vectors.md section 2.1, the decode vectors (a sanity statement). 0x5127 and 0x9AB3 rest on the spec's
decision D11, 0x01E0 on D12. -/
def Obligations.SpecWordsDecode : Prop :=
  decode 0x00E0#16 = .instr .cls ∧ decode 0x00EE#16 = .instr .ret ∧ decode 0x1ABC#16 = .instr (.jpAddr 0xABC#12) ∧
  decode 0x5127#16 = .instr (.seVxVy 0x1#4 0x2#4) ∧ decode 0x9AB3#16 = .instr (.sneVxVy 0xA#4 0xB#4) ∧
  decode 0x8AB6#16 = .instr (.shrVx 0xA#4 0xB#4) ∧ decode 0xD12F#16 = .instr (.drwVxVyN 0x1#4 0x2#4 0xF#4) ∧
  decode 0xFE65#16 = .instr (.ldVxMem 0xE#4) ∧ decode 0x01E0#16 = .unknown 0x01E0#16

/-! ## Steps -/

/-- 40_fetch_decode.md section 4 (R72; that the PC is program-relative is the spec's decision D1): with SEQ = Run, the
host leaving the turn to the sequencer, and a PC the fetch accepts, the step is `exec` of the instruction that the two
bytes at LOAD_BASE + PC decode to. A scripted `pass` is taken off the host's moves (the model's own field, log 2);
nothing else stands around `exec`. -/
def Obligations.StepRunsDecodedInstruction : Prop :=
  ∀ (s : State) (i : Instr), s.seq = .run → fetchable s.pc → decode (s.wordAt s.pc) = .instr i →
    (s.host.moves = [] → step s = exec i s) ∧
    (∀ ms, s.host.moves = .pass :: ms → step s = exec i s.dropMove)

/-- 40_fetch_decode.md section 3 (R70): a word that decodes to Unknown always raises UnknownOpcode, recording the word
and the PC at which it was fetched; every other state is unchanged. That a scripted `pass` leaves the turn to the
sequencer and is taken off the host's moves is the model's choice (log 2). That the report is the Halted record is the
spec's decision D28. -/
def Obligations.UnknownWordHalts : Prop :=
  ∀ (s : State) (w : Word), s.seq = .run → fetchable s.pc → decode (s.wordAt s.pc) = .unknown w →
    w = s.wordAt s.pc ∧
    (s.host.moves = [] → step s = .next (s.withSeq (.halted (.unknownOpcode w s.pc)))) ∧
    (∀ ms, s.host.moves = .pass :: ms → step s = .next (s.dropMove.withSeq (.halted (.unknownOpcode w s.pc))))

/-- 40_fetch_decode.md section 2 (R68; with the spec's decisions D1, D4 and D5, and D30 for the order) and the fetch
rows of R74: MisalignedFetch(PC) at an odd PC under ODD_PC_POLICY = fault, then OutOfBounds of the lowest of the two
addresses LOAD_BASE + PC and the next that is at or above MEM_SIZE, else the fetched word is executed; under `allow` an
odd PC fetches the word at the odd address. The step takes the parameter's default, `fault` (log 11). No host move is
scripted (log 2). -/
def Obligations.FetchChecks : Prop :=
  ∀ (p : Config.OddPcPolicy) (s : State), s.seq = .run → s.host.moves = [] →
    turn p s =
      (if p = .fault ∧ s.pc.toNat % 2 = 1 then .next (s.withSeq (.halted (.misalignedFetch s.pc)))
      else if 4096 ≤ 0x200 + s.pc.toNat then .next (s.withSeq (.halted (.outOfBounds (0x200 + s.pc.toNat))))
      else if 0x200 + s.pc.toNat + 1 = 4096 then .next (s.withSeq (.halted (.outOfBounds 4096)))
      else execVariant (decode (s.wordAt s.pc)) s) ∧
    step s = turn .fault s

/-- 40_fetch_decode.md section 5 (R76; that Halted is terminal is the spec's decision D36): from Halted no step is
enabled. That the model then answers its own fault `halted`, with the record, is the model's choice (log 1). -/
def Obligations.HaltedIsTerminal : Prop :=
  ∀ (s : State) (r : HaltReason), s.seq = .halted r → step s = .fault (.halted r) ∧ ∀ t, step s ≠ .next t

/-- 46_timers_keys.md section 2 (R122; that ticks go on in AwaitKey is the spec's decision D23): in Run or AwaitKey a
tick takes one off each timer that is non-zero, and changes nothing else. That the tick is read from the host's moves
and taken off them is the model's choice (log 2). -/
def Obligations.TickStep : Prop :=
  ∀ (s : State) (ms : List HostMove), s.Live → s.host.moves = .tick :: ms →
    ∃ t, step s = .next t ∧ t.dt.toNat = s.dt.toNat - 1 ∧ t.st.toNat = s.st.toNat - 1 ∧
      t = (s.dropMove.withDt t.dt).withSt t.st

/-- 46_timers_keys.md section 2 (R123; that any key the Input Source reports is accepted is the spec's decision D24): a
key report in AwaitKey(x) writes the key code to V[x] and to no other register, adds 2 to the PC, and sets SEQ to Run;
nothing else changes (the host's move is used up, log 2). -/
def Obligations.KeyDelivery : Prop :=
  ∀ (s : State) (x : Reg) (k : Key) (ms : List HostMove), s.seq = .awaitKey x → s.host.moves = .key k :: ms →
    ∃ t, step s = .next t ∧ (t.getV x).toNat = k.toNat ∧ (∀ r, r ≠ x → t.getV r = s.getV r) ∧
      t.pc.toNat = (s.pc.toNat + 2) % 65536 ∧ t.seq = .run ∧ t.host.moves = ms ∧
      t = ((s.dropMove.withV t.v).withPc t.pc).withSeq t.seq

/-- 60_exceptions.md section 4 (R136; when terminate is taken is the spec's decision D25): terminate, in Run or
AwaitKey, sets SEQ to Halted(Terminated) and changes nothing else. That it is read from the host's moves and taken off
them is the model's choice (log 2). -/
def Obligations.TerminateStep : Prop :=
  ∀ (s : State) (ms : List HostMove), s.Live → s.host.moves = .terminate :: ms →
    step s = .next (s.dropMove.withSeq (.halted .terminated))

/-- 60_exceptions.md section 8 (R149) and log 7, the model's choice: while a key is awaited and the host does nothing, a
step leaves the state as it is. A scripted `pass` is taken off the host's moves (log 2). -/
def Obligations.WaitStandsStill : Prop :=
  ∀ (s : State) (x : Reg), s.seq = .awaitKey x →
    (s.host.moves = [] → step s = .next s) ∧ (∀ ms, s.host.moves = .pass :: ms → step s = .next s.dropMove)

/-- 60_exceptions.md section 7 (R146, "report only during AwaitKey") and log 6, the model's choice: a key report while
SEQ = Run is no step of the machine. -/
def Obligations.KeyReportOnlyInWait : Prop :=
  ∀ (s : State) (k : Key) (ms : List HostMove), s.seq = .run → s.host.moves = .key k :: ms →
    step s = .fault (.keyReportNotAwaited k)

/-- 46_timers_keys.md section 2 and 40_fetch_decode.md section 6: n ticks in a row, in Run or AwaitKey, take n off each
timer down to 0 and change nothing else; then it is the sequencer's turn or the host's next move. The ticks are read
from the host's moves and taken off them (log 2). That ticks go on in AwaitKey is the spec's decision D23. -/
def Obligations.TicksDecrementTimers : Prop :=
  ∀ (n : Nat) (s : State) (ms : List HostMove), s.Live → s.host.moves = List.replicate n .tick ++ ms →
    ∃ t, Host.Core.run core n s = .next t ∧ t.dt.toNat = s.dt.toNat - n ∧ t.st.toNat = s.st.toNat - n ∧
      t.host.moves = ms ∧ t = ((s.withDt t.dt).withSt t.st).withHost { s.host with moves := ms }

/-- 46_timers_keys.md sections 1 and 2: LD Vx,K suspends, ticks go on during the wait, and the key report that follows
completes it: V[x] holds the key, the PC is past the instruction, the timers have lost n. The ticks and the key report
are read from the host's moves and taken off them (log 2). That ticks go on during the wait is the spec's decision D23,
that any reported key is accepted D24. -/
def Obligations.KeyWaitCompletes : Prop :=
  ∀ (n : Nat) (x : Reg) (k : Key) (s : State) (ms : List HostMove),
    s.host.moves = List.replicate n .tick ++ .key k :: ms →
    ∃ t u, exec (.ldVxK x) s = .next t ∧ t.pc = s.pc ∧ t.seq = .awaitKey x ∧
      Host.Core.run core (n + 1) t = .next u ∧ (u.getV x).toNat = k.toNat ∧ (∀ r, r ≠ x → u.getV r = s.getV r) ∧
      u.pc = s.pc + 2#16 ∧ u.seq = .run ∧ u.dt.toNat = s.dt.toNat - n ∧ u.st.toNat = s.st.toNat - n ∧ u.host.moves = ms

/-! ## Reset and load -/

/-- 10_state.md section 10 (R31; all but PC and SEQ is the spec's decision D7) and 70_reset_and_hazards.md section 1:
the machine after reset. That memory holds the glyph table and zeros before a program is loaded, and that the host has
nothing scripted, are the model's choices (log 10, 12, 2 to 5). -/
def Obligations.ResetState : Prop :=
  State.reset.pc = 0#16 ∧ State.reset.seq = .run ∧ (∀ r, State.reset.getV r = 0#8) ∧ State.reset.i = 0#16 ∧
  State.reset.dt = 0#8 ∧ State.reset.st = 0#8 ∧ State.reset.sp = 0#8 ∧
  (∀ k : Fin 16, State.reset.stack[k.val] = 0#16) ∧ (∀ px py, State.reset.pixel px py = false) ∧
  (∀ a, (a < 0x1B0 ∨ 0x200 ≤ a) → State.reset.readByte a = 0#8) ∧
  (∀ k, k < 80 → State.reset.readByte (0x1B0 + k) = font.getD k 0#8)

/-- 70_reset_and_hazards.md section 1 (R151): load places the program bytes at 0x200 and the glyph table in the 80 bytes
before it, and an empty image or one of more than MEM_SIZE - LOAD_BASE = 3584 bytes raises LoadError, which the model
answers as a refusal: the core never starts. Every other byte, and the rest of the state, is as after reset (the zero
fill and FONT_BASE are the spec's D7 and D8). The bound on the length is the spec's decision D34, the glyph bytes D9;
the refusal and the state before the load are the model's (log 12). -/
def Obligations.LoadPlacesProgram : Prop :=
  ∀ bytes : List Byte,
    (bytes.length = 0 ∨ 3584 < bytes.length → load bytes = .refused (.loadError bytes.length)) ∧
    (0 < bytes.length → bytes.length ≤ 3584 → ∃ t, load bytes = .next t ∧
      (∀ k, k < bytes.length → t.readByte (0x200 + k) = bytes.getD k 0#8) ∧
      (∀ k, k < 80 → t.readByte (0x1B0 + k) = font.getD k 0#8) ∧
      (∀ a, a < 0x1B0 ∨ 0x200 + bytes.length ≤ a → t.readByte a = 0#8) ∧
      t = State.reset.withMem t.mem)

/-- 20_memory.md section 1, 10_state.md sections 4 and 6: the invariant holds after reset. SP, the stack entries and
memory at reset are the spec's decision D7 (log 9, 10). -/
def Obligations.InvAtReset : Prop := State.reset.Inv

/-- 70_reset_and_hazards.md section 1: the invariant holds when a program has been loaded. The state that load starts
from is the spec's decision D7 (log 9, 10, 12). -/
def Obligations.InvAfterLoad : Prop := ∀ (bytes : List Byte) (s : State), load bytes = .next s → s.Inv

/-- 10_state.md sections 4, 6 and 8 (the bounds of R18, the invariant of R21, the meaning of AwaitKey in R27) and the
canonical form of memory: every step keeps the invariant, whatever the host does. The evenness of PC rests on the
default of ODD_PC_POLICY (log 11). -/
def Obligations.InvKeptByEveryStep : Prop := ∀ s t : State, s.Inv → step s = .next t → t.Inv

/-! ## Whole-machine rules -/

/-- 40_fetch_decode.md section 4 (R73; that faults are precise is the spec's decision D30): a fault, of the fetch or of
an instruction, changes SEQ to Halted(fault, info) and nothing else. That a scripted `pass` leaves the turn to the
sequencer and is taken off the host's moves is the model's choice (log 2). -/
def Obligations.FaultsArePrecise : Prop :=
  ∀ (s t : State) (r : HaltReason), s.seq = .run → step s = .next t → t.seq = .halted r →
    (s.host.moves = [] → t = s.withSeq (.halted r)) ∧
    (∀ ms, s.host.moves = .pass :: ms → t = s.dropMove.withSeq (.halted r))

/-- 40_fetch_decode.md section 4, the execute rows of R74: what an instruction does to SEQ. It stays, but for LD Vx,K,
which suspends, and for the faults of the table, each under its condition; no other instruction can fault. The fault
below LOAD_BASE is the spec's decision D2, the key index above 15 D18 (the default, log 11), the block accesses D19. -/
def Obligations.SequencerAndFaultTable : Prop :=
  ∀ (i : Instr) (s t : State), exec i s = .next t →
    (t.seq = s.seq ∧ ∀ x, i ≠ .ldVxK x) ∨ (∃ x, i = .ldVxK x ∧ t.seq = .awaitKey x) ∨
      (∃ r, t.seq = .halted r ∧ mayRaise s i r)

/-- 10_state.md section 11 (R33, with R40 for memory): what each of the 34 instructions leaves unchanged when exec gives
a next state: every register, I, the timers, the stack, every byte of memory, every cell of the display, and the host's
inputs, outside its row of the access table. LD B,Vx stores to I .. I+2 and LD [I],Vx to I .. I+x, with I the register
before the instruction; no other form stores. VF unchanged where no flag is written is the spec's decisions D13, D14 and
D16, nothing changed by a fault D19 and D30; that a draw of the host moves its inputs is the model's (log 3 to 5). -/
def Obligations.FrameOfEveryInstruction : Prop :=
  ∀ (i : Instr) (s t : State), exec i s = .next t → KeepsOutside (footprintOf s i) s t

/-! ## Memory primitives and the display sink -/

/-- 20_memory.md section 2 (R36, R37; the check of every address first, the lowest one recorded and all or nothing are
the spec's decision D19): the n-byte access checks every address first; the recorded address is the lowest one out of
range; a read answers the bytes, a write stores exactly them, and the 16-bit read is the big-endian word. -/
def Obligations.CheckedAccesses : Prop :=
  ∀ (s : State) (a : Nat),
    (∀ n k, k < n → 4096 ≤ a + k → (∀ j, j < k → a + j < 4096) → s.memRead a n = .error (.outOfBounds (a + k))) ∧
    (∀ n, (∀ k, k < n → a + k < 4096) → s.memRead a n = .ok ((List.range n).map fun k => s.readByte (a + k))) ∧
    (∀ (bs : List Byte) k, k < bs.length → 4096 ≤ a + k → (∀ j, j < k → a + j < 4096) →
      s.memWrite a bs = .error (.outOfBounds (a + k))) ∧
    (∀ bs : List Byte, (∀ k, k < bs.length → a + k < 4096) → ∃ t, s.memWrite a bs = .ok t ∧
      (∀ k, k < bs.length → t.readByte (a + k) = bs.getD k 0#8) ∧
      (∀ c, c < a ∨ a + bs.length ≤ c → t.readByte c = s.readByte c) ∧ t = s.withMem t.mem) ∧
    (4096 ≤ a → s.memRead16 a = .error (.outOfBounds a)) ∧
    (a + 1 = 4096 → s.memRead16 a = .error (.outOfBounds (a + 1))) ∧
    (a + 1 < 4096 → ∃ w, s.memRead16 a = .ok w ∧
      w.toNat = (s.readByte a).toNat * 256 + (s.readByte (a + 1)).toNat)

/-- 60_exceptions.md section 7 (R140, R141; the contract is the spec's decision D22): SetPixel XORs one cell, leaves
every other cell alone, and answers whether a lit pixel was turned off; ClearDisplay sets every cell to 0. -/
def Obligations.DisplaySinkContract : Prop :=
  (∀ (p : Plane) (px : Fin 64) (py : Fin 32) (b : Bool),
    (p.setPixel px py b).1 = (p.get px py && b) ∧
    (p.setPixel px py b).2.get px py = (p.get px py ^^ b) ∧
    ∀ qx qy, (qx, qy) ≠ (px, py) → (p.setPixel px py b).2.get qx qy = p.get qx qy) ∧
  (∀ px py, Plane.clear.get px py = false)

/-! ## Arithmetic and logic -/

/-- R96 and R98: LD Vx,byte and LD Vx,Vy, with their encodings, write their value to V[x], for every x, F too, and
complete. -/
def Obligations.RegisterLoads : Prop :=
  ∀ (x y : Reg) (kk : Byte) (s : State),
    EncodedAs (.ldVxByte x kk) (formatXK 0x6#4 x kk) ∧ EncodedAs (.ldVxVy x y) (formatXY 0x8#4 x y 0x0#4) ∧
    (∃ t, exec (.ldVxByte x kk) s = .next t ∧ t.getV x = kk ∧ (∀ r, r ≠ x → t.getV r = s.getV r) ∧ s.AdvancedTo t) ∧
    (∃ t, exec (.ldVxVy x y) s = .next t ∧ t.getV x = s.getV y ∧ (∀ r, r ≠ x → t.getV r = s.getV r) ∧ s.AdvancedTo t)

/-- 43_alu.md section 2 (R97; that no carry is written is the spec's decision D14): ADD Vx,byte. -/
def Obligations.AddImmediate : Prop :=
  ∀ (x : Reg) (kk : Byte) (s : State),
    ∃ t, exec (.addVxByte x kk) s = .next t ∧ (t.getV x).toNat = ((s.getV x).toNat + kk.toNat) % 256 ∧
      (∀ r, r ≠ x → t.getV r = s.getV r) ∧ s.AdvancedTo t

/-- 43_alu.md section 3 (R99 to R101; that VF is unchanged unless x = F is the spec's decision D13): OR, AND and XOR,
bit by bit. -/
def Obligations.BitwiseOperations : Prop :=
  ∀ (x y : Reg) (s : State),
    (∃ t, exec (.orVxVy x y) s = .next t ∧
      (∀ k, (t.getV x).getLsbD k = ((s.getV x).getLsbD k || (s.getV y).getLsbD k)) ∧
      (∀ r, r ≠ x → t.getV r = s.getV r) ∧ s.AdvancedTo t) ∧
    (∃ t, exec (.andVxVy x y) s = .next t ∧
      (∀ k, (t.getV x).getLsbD k = ((s.getV x).getLsbD k && (s.getV y).getLsbD k)) ∧
      (∀ r, r ≠ x → t.getV r = s.getV r) ∧ s.AdvancedTo t) ∧
    (∃ t, exec (.xorVxVy x y) s = .next t ∧
      (∀ k, (t.getV x).getLsbD k = ((s.getV x).getLsbD k ^^ (s.getV y).getLsbD k)) ∧
      (∀ r, r ≠ x → t.getV r = s.getV r) ∧ s.AdvancedTo t)

/-- 43_alu.md section 3 (R102): ADD Vx,Vy. VF ends as the carry for every x, also x = F, where the pseudocode's second
write stands (R95, which the spec marks as its decision D15); both operands are read before any write, y = F too. -/
def Obligations.AddWithCarry : Prop :=
  ∀ (x y : Reg) (s : State),
    EncodedAs (.addVxVy x y) (formatXY 0x8#4 x y 0x4#4) ∧
    ∃ t, exec (.addVxVy x y) s = .next t ∧
      (x ≠ Reg.vF → (t.getV x).toNat = ((s.getV x).toNat + (s.getV y).toNat) % 256) ∧
      (t.getV Reg.vF).toNat = (if 256 ≤ (s.getV x).toNat + (s.getV y).toNat then 1 else 0) ∧
      (∀ r, r ≠ x → r ≠ Reg.vF → t.getV r = s.getV r) ∧ s.AdvancedTo t

/-- 43_alu.md section 3 (R103, R105): SUB and SUBN, difference modulo 256 and VF = not borrow; VF ends as the flag for
every x, also x = F (R95, which the spec marks as its decision D15). -/
def Obligations.SubtractWithBorrow : Prop :=
  ∀ (x y : Reg) (s : State),
    EncodedAs (.subVxVy x y) (formatXY 0x8#4 x y 0x5#4) ∧ EncodedAs (.subnVxVy x y) (formatXY 0x8#4 x y 0x7#4) ∧
    (∃ t, exec (.subVxVy x y) s = .next t ∧
      (x ≠ Reg.vF → (t.getV x).toNat = ((s.getV x).toNat + 256 - (s.getV y).toNat) % 256) ∧
      (t.getV Reg.vF).toNat = (if (s.getV y).toNat ≤ (s.getV x).toNat then 1 else 0) ∧
      (∀ r, r ≠ x → r ≠ Reg.vF → t.getV r = s.getV r) ∧ s.AdvancedTo t) ∧
    (∃ t, exec (.subnVxVy x y) s = .next t ∧
      (x ≠ Reg.vF → (t.getV x).toNat = ((s.getV y).toNat + 256 - (s.getV x).toNat) % 256) ∧
      (t.getV Reg.vF).toNat = (if (s.getV x).toNat ≤ (s.getV y).toNat then 1 else 0) ∧
      (∀ r, r ≠ x → r ≠ Reg.vF → t.getV r = s.getV r) ∧ s.AdvancedTo t)

/-- 43_alu.md section 3 (R104, R106): SHR and SHL move V[x], not V[y], by one; VF ends as the bit shifted out for every
x, also x = F (R95, which the spec marks as its decision D15). The y field has no effect. -/
def Obligations.ShiftsByOne : Prop :=
  ∀ (x y : Reg) (s : State),
    EncodedAs (.shrVx x y) (formatXY 0x8#4 x y 0x6#4) ∧ EncodedAs (.shlVx x y) (formatXY 0x8#4 x y 0xE#4) ∧
    (∃ t, exec (.shrVx x y) s = .next t ∧
      (x ≠ Reg.vF → (t.getV x).toNat = (s.getV x).toNat / 2) ∧
      (t.getV Reg.vF).toNat = (s.getV x).toNat % 2 ∧
      (∀ r, r ≠ x → r ≠ Reg.vF → t.getV r = s.getV r) ∧ s.AdvancedTo t) ∧
    (∃ t, exec (.shlVx x y) s = .next t ∧
      (x ≠ Reg.vF → (t.getV x).toNat = 2 * (s.getV x).toNat % 256) ∧
      (t.getV Reg.vF).toNat = (s.getV x).toNat / 128 ∧
      (∀ r, r ≠ x → r ≠ Reg.vF → t.getV r = s.getV r) ∧ s.AdvancedTo t)

/-- 43_alu.md section 4 (R107; that r is a free draw is the spec's decision D27): RND writes a draw masked by kk, and
the draw is used up. Whatever byte the host scripts is the draw; with none scripted it is the free value of log 4. -/
def Obligations.RandomMasked : Prop :=
  ∀ (x : Reg) (kk : Byte) (s : State),
    ∃ t, exec (.rndVxByte x kk) s = .next t ∧
      (∀ k, (t.getV x).getLsbD k = (s.randomByte.getLsbD k && kk.getLsbD k)) ∧
      (∀ r bs, s.host.bytes = r :: bs → s.randomByte = r ∧ t.host.bytes = bs) ∧
      (s.host.bytes = [] → s.randomByte = Config.freeByte s.host.draws) ∧
      t.host.draws = s.host.draws + 1 ∧ t.host.moves = s.host.moves ∧ t.host.keys = s.host.keys ∧
      (∀ r, r ≠ x → t.getV r = s.getV r) ∧ s.AdvancedTo t

/-! ## Skips -/

/-- R87 and R88: SE Vx,byte and SNE Vx,byte skip exactly when V[x] equals, or differs from, the immediate; only the PC
changes. -/
def Obligations.SkipsOnByte : Prop :=
  ∀ (x : Reg) (kk : Byte) (s : State),
    EncodedAs (.seVxByte x kk) (formatXK 0x3#4 x kk) ∧ EncodedAs (.sneVxByte x kk) (formatXK 0x4#4 x kk) ∧
    (s.getV x = kk → exec (.seVxByte x kk) s = .next (s.withPc (s.pc + 4#16)) ∧
      exec (.sneVxByte x kk) s = .next (s.withPc (s.pc + 2#16))) ∧
    (s.getV x ≠ kk → exec (.seVxByte x kk) s = .next (s.withPc (s.pc + 2#16)) ∧
      exec (.sneVxByte x kk) s = .next (s.withPc (s.pc + 4#16)))

/-- 42_skip.md section 1 (R89, R90; that the low nibble is ignored is the spec's decision D11 and concerns decoding): SE
Vx,Vy and SNE Vx,Vy skip exactly when the registers are equal, or differ; only the PC changes. -/
def Obligations.SkipsOnRegisters : Prop :=
  ∀ (x y : Reg) (s : State),
    (s.getV x = s.getV y → exec (.seVxVy x y) s = .next (s.withPc (s.pc + 4#16)) ∧
      exec (.sneVxVy x y) s = .next (s.withPc (s.pc + 2#16))) ∧
    (s.getV x ≠ s.getV y → exec (.seVxVy x y) s = .next (s.withPc (s.pc + 2#16)) ∧
      exec (.sneVxVy x y) s = .next (s.withPc (s.pc + 4#16)))

/-- 42_skip.md section 2 (R92, R93), for a key index up to 15: SKP skips exactly when the Input Source answers that key
V[x] is down, SKNP exactly when it is up; the answer is the host's, bit V[x] of the scripted key map or of the free
value of log 3, and is used up. -/
def Obligations.SkipsOnKey : Prop :=
  ∀ (x : Reg) (s : State), (s.getV x).toNat ≤ 15 →
    (s.keyMap.getLsbD (s.getV x).toNat = true →
      exec (.skpVx x) s = .next (s.afterKeyQuery.withPc (s.pc + 4#16)) ∧
      exec (.sknpVx x) s = .next (s.afterKeyQuery.withPc (s.pc + 2#16))) ∧
    (s.keyMap.getLsbD (s.getV x).toNat = false →
      exec (.skpVx x) s = .next (s.afterKeyQuery.withPc (s.pc + 2#16)) ∧
      exec (.sknpVx x) s = .next (s.afterKeyQuery.withPc (s.pc + 4#16))) ∧
    (∀ m ms, s.host.keys = m :: ms → s.keyMap = m ∧ s.afterKeyQuery.host.keys = ms) ∧
    (s.host.keys = [] → s.keyMap = Config.freeKeys s.host.draws)

/-- 42_skip.md section 2 (R91; the default is the spec's decision D18), a value above 15: OutOfBounds(V[x]) under
KEY_RANGE_POLICY = fault, the default, which SKP and SKNP take; under `mask` the key index is V[x] AND 0x0F. (Log 11 for
the default.) -/
def Obligations.KeyIndexAboveFifteen : Prop :=
  ∀ (x : Reg) (s : State), 15 < (s.getV x).toNat →
    exec (.skpVx x) s = .next (s.withSeq (.halted (.outOfBounds (s.getV x).toNat))) ∧
    exec (.sknpVx x) s = .next (s.withSeq (.halted (.outOfBounds (s.getV x).toNat))) ∧
    (∀ wanted, keyTest .fault wanted x s = .next (s.withSeq (.halted (.outOfBounds (s.getV x).toNat)))) ∧
    (∀ wanted, keyTest .mask wanted x s = .next (s.afterKeyQuery.withPc
      (if s.keyMap.getLsbD ((s.getV x).toNat % 16) = wanted then s.pc + 4#16 else s.pc + 2#16)))

/-! ## Control transfer -/

/-- 41_flow.md section 2 (R83; the fault below LOAD_BASE is the spec's decision D2): JP addr. Only the PC changes, to
nnn - LOAD_BASE; a target below LOAD_BASE raises OutOfBounds(nnn). -/
def Obligations.JumpToAddress : Prop :=
  ∀ (nnn : Addr) (s : State),
    (0x200 ≤ nnn.toNat → ∃ t, exec (.jpAddr nnn) s = .next t ∧ t.pc.toNat + 0x200 = nnn.toNat ∧ t = s.withPc t.pc) ∧
    (nnn.toNat < 0x200 → exec (.jpAddr nnn) s = .next (s.withSeq (.halted (.outOfBounds nnn.toNat))))

/-- 41_flow.md section 2 (R85; the fault below LOAD_BASE is the spec's decision D2, the full sum D3): JP V0,addr. The
sum nnn + V0 in full, no wrap and no 12-bit mask, rebased once; a sum below LOAD_BASE raises OutOfBounds of the sum. -/
def Obligations.JumpToAddressPlusV0 : Prop :=
  ∀ (nnn : Addr) (s : State),
    (0x200 ≤ nnn.toNat + (s.getV 0#4).toNat →
      ∃ t, exec (.jpV0Addr nnn) s = .next t ∧ t.pc.toNat + 0x200 = nnn.toNat + (s.getV 0#4).toNat ∧ t = s.withPc t.pc) ∧
    (nnn.toNat + (s.getV 0#4).toNat < 0x200 →
      exec (.jpV0Addr nnn) s = .next (s.withSeq (.halted (.outOfBounds (nnn.toNat + (s.getV 0#4).toNat)))))

/-- 41_flow.md section 2 (R84; that the CALL's own PC is pushed is the spec's decision D6, the fault below LOAD_BASE D2,
the order of the checks D30, what SP counts D37): CALL addr. A full stack is checked first, then the target; else S[SP]
is the CALL's PC, SP grows by one, the other entries stay, and the PC is nnn - LOAD_BASE. -/
def Obligations.CallSubroutine : Prop :=
  ∀ (nnn : Addr) (s : State),
    (s.sp.toNat = 16 → exec (.callAddr nnn) s = .next (s.withSeq (.halted (.stackOverflow s.pc)))) ∧
    (s.sp.toNat < 16 → nnn.toNat < 0x200 →
      exec (.callAddr nnn) s = .next (s.withSeq (.halted (.outOfBounds nnn.toNat)))) ∧
    (s.sp.toNat < 16 → 0x200 ≤ nnn.toNat →
      ∃ t, exec (.callAddr nnn) s = .next t ∧ t.pc.toNat + 0x200 = nnn.toNat ∧ t.sp.toNat = s.sp.toNat + 1 ∧
        (∀ k : Fin 16, t.stack[k.val] = if k.val = s.sp.toNat then s.pc else s.stack[k.val]) ∧
        t = ((s.withStack t.stack).withSp t.sp).withPc t.pc)

/-- 41_flow.md section 2 (R82; resuming at the popped PC plus 2 is the spec's decision D6, the uncleared entry its
decision D37): RET. The top entry, which is not cleared, plus 2 becomes the PC and SP shrinks by one; an empty stack
raises StackUnderflow(PC). With SP above STACK_DEPTH, against the invariant of R21 that every step keeps, the statement
says nothing. -/
def Obligations.ReturnFromSubroutine : Prop :=
  ∀ s : State,
    EncodedAs .ret 0x00EE#16 ∧
    (s.sp.toNat = 0 → exec .ret s = .next (s.withSeq (.halted (.stackUnderflow s.pc)))) ∧
    (∀ k : Fin 16, s.sp.toNat = k.val + 1 →
      ∃ t, exec .ret s = .next t ∧ t.pc.toNat = (s.stack[k.val].toNat + 2) % 65536 ∧ t.sp.toNat = k.val ∧
        t.stack = s.stack ∧ t = (s.withSp t.sp).withPc t.pc)

/-- 10_state.md section 6, 41_flow.md section 2 (with the spec's decisions D6 and D37): any calls that fit on the stack
succeed, as many returns bring SP back and resume after the first CALL, and nothing but the stack entries and the PC has
changed; on a full stack the next CALL raises StackOverflow. -/
def Obligations.NestedCallsReturn : Prop :=
  ∀ (targets : List Addr) (s : State), (∀ a ∈ targets, 0x200 ≤ a.toNat) → s.sp.toNat + targets.length ≤ 16 →
    ∃ t u, runInstrs (targets.map .callAddr) s = .next t ∧ t.sp.toNat = s.sp.toNat + targets.length ∧
      (t.sp.toNat = 16 → ∀ a, exec (.callAddr a) t = .next (t.withSeq (.halted (.stackOverflow t.pc)))) ∧
      runInstrs (List.replicate targets.length .ret) t = .next u ∧ u.sp = s.sp ∧
      (targets ≠ [] → u.pc = s.pc + 2#16) ∧ u = (s.withStack u.stack).withPc u.pc

/-- 41_flow.md section 1 (R81; that the PC is program-relative is the spec's decision D1): for every even target from
LOAD_BASE up to the last word of memory, the fetch after a JP reads the word at that absolute address. -/
def Obligations.JumpReachesAddress : Prop :=
  ∀ (nnn : Addr) (s : State) (p : Config.OddPcPolicy), 0x200 ≤ nnn.toNat → nnn.toNat % 2 = 0 →
    ∃ t, exec (.jpAddr nnn) s = .next t ∧
      t.fetch p = .ok (bigEndian (s.readByte nnn.toNat) (s.readByte (nnn.toNat + 1)))

/-! ## Index register and memory -/

/-- R109: LD I,addr stores nnn, zero-extended and not rebased, into I. -/
def Obligations.LoadIndex : Prop :=
  ∀ (nnn : Addr) (s : State),
    EncodedAs (.ldIAddr nnn) (formatA 0xA#4 nnn) ∧
    ∃ t, exec (.ldIAddr nnn) s = .next t ∧ t.i.toNat = nnn.toNat ∧ t = (s.withI t.i).withPc (s.pc + 2#16)

/-- 44_index_memory.md section 1 (R110, R111; the wrap without a flag is the spec's decision D16, the low nibble D17,
FONT_BASE D8): ADD I,Vx and LD F,Vx. -/
def Obligations.IndexArithmetic : Prop :=
  ∀ (x : Reg) (s : State),
    (∃ t, exec (.addIVx x) s = .next t ∧ t.i.toNat = (s.i.toNat + (s.getV x).toNat) % 65536 ∧
      t = (s.withI t.i).withPc (s.pc + 2#16)) ∧
    (∃ t, exec (.ldFVx x) s = .next t ∧ t.i.toNat = 0x1B0 + 5 * ((s.getV x).toNat % 16) ∧
      t = (s.withI t.i).withPc (s.pc + 2#16))

/-- 44_index_memory.md section 2 (R112): LD B,Vx stores the hundreds, tens and ones of V[x] at I, I + 1, I + 2 when all
three exist, I unchanged; else OutOfBounds of the lowest that does not, and nothing is written. All or nothing, with the
lowest address recorded, is the spec's decision D19. -/
def Obligations.StoreDecimalDigits : Prop :=
  ∀ (x : Reg) (s : State),
    (s.i.toNat + 3 ≤ 4096 → ∃ t, exec (.ldBVx x) s = .next t ∧
      (t.readByte s.i.toNat).toNat = (s.getV x).toNat / 100 ∧
      (t.readByte (s.i.toNat + 1)).toNat = (s.getV x).toNat / 10 % 10 ∧
      (t.readByte (s.i.toNat + 2)).toNat = (s.getV x).toNat % 10 ∧
      (∀ a, a < s.i.toNat ∨ s.i.toNat + 3 ≤ a → t.readByte a = s.readByte a) ∧
      t = (s.withMem t.mem).withPc (s.pc + 2#16)) ∧
    (∀ k, k < 3 → 4096 ≤ s.i.toNat + k → (∀ j, j < k → s.i.toNat + j < 4096) →
      exec (.ldBVx x) s = .next (s.withSeq (.halted (.outOfBounds (s.i.toNat + k)))))

/-- 44_index_memory.md section 2 (R113): LD [I],Vx stores V[k] at I + k for k = 0..x when all of I .. I + x exist, I
unchanged; else OutOfBounds of the lowest that does not, and nothing is written. All or nothing, with the lowest address
recorded, is the spec's decision D19. -/
def Obligations.StoreRegisters : Prop :=
  ∀ (x : Reg) (s : State),
    (s.i.toNat + x.toNat < 4096 → ∃ t, exec (.ldMemVx x) s = .next t ∧
      (∀ r : Reg, r.toNat ≤ x.toNat → t.readByte (s.i.toNat + r.toNat) = s.getV r) ∧
      (∀ a, a < s.i.toNat ∨ s.i.toNat + x.toNat < a → t.readByte a = s.readByte a) ∧
      t = (s.withMem t.mem).withPc (s.pc + 2#16)) ∧
    (∀ k, k ≤ x.toNat → 4096 ≤ s.i.toNat + k → (∀ j, j < k → s.i.toNat + j < 4096) →
      exec (.ldMemVx x) s = .next (s.withSeq (.halted (.outOfBounds (s.i.toNat + k)))))

/-- 44_index_memory.md section 2 (R114): LD Vx,[I] loads V[k] from I + k for k = 0..x when all of I .. I + x exist, the
registers above x and I unchanged; else OutOfBounds of the lowest that does not, and no register is written. All or
nothing, with the lowest address recorded, is the spec's decision D19. -/
def Obligations.LoadRegisters : Prop :=
  ∀ (x : Reg) (s : State),
    (s.i.toNat + x.toNat < 4096 → ∃ t, exec (.ldVxMem x) s = .next t ∧
      (∀ r : Reg, t.getV r = if r.toNat ≤ x.toNat then s.readByte (s.i.toNat + r.toNat) else s.getV r) ∧
      t = (s.withV t.v).withPc (s.pc + 2#16)) ∧
    (∀ k, k ≤ x.toNat → 4096 ≤ s.i.toNat + k → (∀ j, j < k → s.i.toNat + j < 4096) →
      exec (.ldVxMem x) s = .next (s.withSeq (.halted (.outOfBounds (s.i.toNat + k)))))

/-- 44_index_memory.md section 2: LD Vx,[I] is the exact inverse of LD [I],Vx for the same I and x, whatever the
registers held in between; the registers above x and I are unchanged by it. -/
def Obligations.StoreThenLoadRestores : Prop :=
  ∀ (x : Reg) (s : State) (between : Vector Byte 16), s.i.toNat + x.toNat < 4096 →
    ∃ t u, exec (.ldMemVx x) s = .next t ∧ exec (.ldVxMem x) (t.withV between) = .next u ∧ u.i = s.i ∧
      ∀ r : Reg, u.getV r = if r.toNat ≤ x.toNat then s.getV r else (t.withV between).getV r

/-- 20_memory.md section 7 (R49) and 70_reset_and_hazards.md section 3 (R157); that a stored byte is seen by the very
next fetch is the spec's decision D26. A store by LD [I],Vx over both bytes of the next instruction is fetched as
written by the very next step: the word V[k] : V[k+1] is decoded and executed. That the next step is the sequencer's
turn, with no host move scripted, is the model's way to say so (log 2). -/
def Obligations.StoredCodeIsFetched : Prop :=
  ∀ (x k : Reg) (s : State), s.seq = .run → s.host.moves = [] → fetchable (s.pc + 2#16) →
    s.i.toNat + x.toNat < 4096 → k.toNat < x.toNat → s.i.toNat + k.toNat = 0x200 + (s.pc + 2#16).toNat →
    ∃ t, exec (.ldMemVx x) s = .next t ∧
      step t = execVariant (decode (bigEndian (s.getV k) (s.getV (k + 1#4)))) t

/-! ## Display -/

/-- R116: CLS sets every cell to 0 and changes nothing else, VF neither, but the PC, which takes the +2 of Done. -/
def Obligations.ClearScreen : Prop :=
  ∀ s : State, EncodedAs .cls 0x00E0#16 ∧ ∃ t, exec .cls s = .next t ∧ (∀ px py, t.pixel px py = false) ∧
    t = (s.withDisplay t.display).withPc (s.pc + 2#16)

/-- 45_display.md (R117; the wrap per pixel, n = 0 and the bit order are the spec's decisions D40, D20, D21, the sink's
contract D22, the checks before any effect D19): DRW XORs exactly the cells of the sprite's lit bits, VF is 1 when a lit
cell was among them and else 0, the coordinates are V[x] and V[y] from before the instruction (x = F or y = F too); a
sprite partly outside memory raises OutOfBounds of the lowest missing address and draws nothing. -/
def Obligations.DrawSprite : Prop :=
  ∀ (x y : Reg) (n : Nibble) (s : State),
    (n = 0#4 ∨ s.i.toNat + n.toNat ≤ 4096 → ∃ t, exec (.drwVxVyN x y n) s = .next t ∧
      (∀ px py, t.pixel px py = (s.pixel px py ^^ s.spriteBit (s.getV x) (s.getV y) n.toNat px py)) ∧
      ((∃ px py, s.pixel px py = true ∧ s.spriteBit (s.getV x) (s.getV y) n.toNat px py = true) →
        t.getV Reg.vF = 1#8) ∧
      ((∀ px py, s.pixel px py = true → s.spriteBit (s.getV x) (s.getV y) n.toNat px py = false) →
        t.getV Reg.vF = 0#8) ∧
      (∀ r, r ≠ Reg.vF → t.getV r = s.getV r) ∧
      t = ((s.withV t.v).withDisplay t.display).withPc (s.pc + 2#16)) ∧
    (∀ k, k < n.toNat → 4096 ≤ s.i.toNat + k → (∀ j, j < k → s.i.toNat + j < 4096) →
      exec (.drwVxVyN x y n) s = .next (s.withSeq (.halted (.outOfBounds (s.i.toNat + k)))))

/-- 45_display.md (with the spec's decisions D40 and D22): drawing the same sprite twice at the same coordinates, held
in registers other than VF, restores the display, and the second draw reports a collision exactly when some cell of the
sprite was dark at first. -/
def Obligations.DrawTwiceRestores : Prop :=
  ∀ (x y : Reg) (n : Nibble) (s : State), x ≠ Reg.vF → y ≠ Reg.vF → s.i.toNat + n.toNat ≤ 4096 →
    ∃ t u, exec (.drwVxVyN x y n) s = .next t ∧ exec (.drwVxVyN x y n) t = .next u ∧
      (∀ px py, u.pixel px py = s.pixel px py) ∧
      ((∃ px py, s.pixel px py = false ∧ s.spriteBit (s.getV x) (s.getV y) n.toNat px py = true) →
        u.getV Reg.vF = 1#8) ∧
      ((∀ px py, s.pixel px py = false → s.spriteBit (s.getV x) (s.getV y) n.toNat px py = false) →
        u.getV Reg.vF = 0#8)

/-! ## Timers and keys -/

/-- 46_timers_keys.md section 1 (R118, R120, R121): LD Vx,DT reads DT; LD DT,Vx and LD ST,Vx set their timer and nothing
else but the PC. -/
def Obligations.TimerInstructions : Prop :=
  ∀ (x : Reg) (s : State),
    (∃ t, exec (.ldVxDt x) s = .next t ∧ t.getV x = s.dt ∧ (∀ r, r ≠ x → t.getV r = s.getV r) ∧
      t = (s.withV t.v).withPc (s.pc + 2#16)) ∧
    (∃ t, exec (.ldDtVx x) s = .next t ∧ t.dt = s.getV x ∧ t = (s.withDt t.dt).withPc (s.pc + 2#16)) ∧
    (∃ t, exec (.ldStVx x) s = .next t ∧ t.st = s.getV x ∧ t = (s.withSt t.st).withPc (s.pc + 2#16))

/-- 46_timers_keys.md section 1 (R119; the suspended state is the spec's decision D10): LD Vx,K suspends: SEQ becomes
AwaitKey(x), the PC keeps the instruction's address, and nothing else changes. -/
def Obligations.KeyWaitSuspends : Prop :=
  ∀ (x : Reg) (s : State), ∃ t, exec (.ldVxK x) s = .next t ∧ t.seq = .awaitKey x ∧ t.pc = s.pc ∧ t = s.withSeq t.seq

/-- 40_fetch_decode.md section 5 (R77; the notion of a parked run is the spec's decision D36, that a JP to itself gets
no +2 D41): a parked machine stands still: the sequencer's turn changes nothing, and a tick changes the timers only and
leaves it parked. A scripted `pass` or tick is taken off the host's moves (log 2). Parked asks for a PC that the fetch
accepts under ODD_PC_POLICY = fault, which R77 does not say: the model's choice (log 17). -/
def Obligations.ParkedStandsStill : Prop :=
  ∀ s : State, s.Parked →
    (s.host.moves = [] → step s = .next s) ∧
    (∀ ms, s.host.moves = .pass :: ms → step s = .next s.dropMove) ∧
    (∀ ms, s.host.moves = .tick :: ms →
      ∃ t, step s = .next t ∧ t.Parked ∧ t = (s.dropMove.withDt t.dt).withSt t.st)
end

