-- ==== Sys2Proof/Laws/Decode.lean ====
section
/-! SUPPORT. The fields of the words that the encoder writes, and the byte order of words. -/

namespace Sys2Proof

theorem fieldOp_toNat (w : Word) : (fieldOp w).toNat = w.toNat / 0x1000 := by
  have := w.isLt
  simp only [fieldOp, BitVec.extractLsb'_toNat, Nat.shiftRight_eq_div_pow]
  omega

theorem fieldX_toNat (w : Word) : (fieldX w).toNat = w.toNat / 0x100 % 0x10 := by
  simp only [fieldX, BitVec.extractLsb'_toNat, Nat.shiftRight_eq_div_pow]

theorem fieldY_toNat (w : Word) : (fieldY w).toNat = w.toNat / 0x10 % 0x10 := by
  simp only [fieldY, BitVec.extractLsb'_toNat, Nat.shiftRight_eq_div_pow]

theorem fieldN_toNat (w : Word) : (fieldN w).toNat = w.toNat % 0x10 := by
  simp only [fieldN, BitVec.extractLsb'_toNat, Nat.shiftRight_eq_div_pow]
  omega

theorem fieldKk_toNat (w : Word) : (fieldKk w).toNat = w.toNat % 0x100 := by
  simp only [fieldKk, BitVec.extractLsb'_toNat, Nat.shiftRight_eq_div_pow]
  omega

theorem fieldNnn_toNat (w : Word) : (fieldNnn w).toNat = w.toNat % 0x1000 := by
  simp only [fieldNnn, BitVec.extractLsb'_toNat, Nat.shiftRight_eq_div_pow]
  omega

theorem formatA_toNat (op : BitVec 4) (nnn : Addr) : (formatA op nnn).toNat = op.toNat * 0x1000 + nnn.toNat := by
  have := nnn.isLt
  simp only [formatA, BitVec.toNat_append, Nat.shiftLeft_eq]
  rw [← Nat.shiftLeft_eq, ← Nat.shiftLeft_add_eq_or_of_lt this, Nat.shiftLeft_eq]

theorem formatXK_toNat (op : BitVec 4) (x : Reg) (kk : Byte) :
    (formatXK op x kk).toNat = op.toNat * 0x1000 + x.toNat * 0x100 + kk.toNat := by
  have hx := x.isLt
  have hk := kk.isLt
  simp only [formatXK, BitVec.toNat_append]
  rw [← Nat.shiftLeft_add_eq_or_of_lt hk, ← Nat.shiftLeft_add_eq_or_of_lt hx, Nat.shiftLeft_eq, Nat.shiftLeft_eq]
  omega

theorem formatXY_toNat (op : BitVec 4) (x y : Reg) (n : Nibble) :
    (formatXY op x y n).toNat = op.toNat * 0x1000 + x.toNat * 0x100 + y.toNat * 0x10 + n.toNat := by
  have hx := x.isLt
  have hy := y.isLt
  have hn := n.isLt
  simp only [formatXY, BitVec.toNat_append]
  rw [← Nat.shiftLeft_add_eq_or_of_lt hn, ← Nat.shiftLeft_add_eq_or_of_lt hy, ← Nat.shiftLeft_add_eq_or_of_lt hx,
    Nat.shiftLeft_eq, Nat.shiftLeft_eq, Nat.shiftLeft_eq]
  omega

/-! ### The fields of an encoded word are the operands -/

@[simp] theorem fieldOp_formatA (op : BitVec 4) (nnn : Addr) : fieldOp (formatA op nnn) = op := by
  apply BitVec.eq_of_toNat_eq; rw [fieldOp_toNat, formatA_toNat]; have := nnn.isLt; omega

@[simp] theorem fieldNnn_formatA (op : BitVec 4) (nnn : Addr) : fieldNnn (formatA op nnn) = nnn := by
  apply BitVec.eq_of_toNat_eq; rw [fieldNnn_toNat, formatA_toNat]; have := nnn.isLt; omega

@[simp] theorem fieldOp_formatXK (op : BitVec 4) (x : Reg) (kk : Byte) : fieldOp (formatXK op x kk) = op := by
  apply BitVec.eq_of_toNat_eq; rw [fieldOp_toNat, formatXK_toNat]; have := kk.isLt; have := x.isLt; omega

@[simp] theorem fieldX_formatXK (op : BitVec 4) (x : Reg) (kk : Byte) : fieldX (formatXK op x kk) = x := by
  apply BitVec.eq_of_toNat_eq; rw [fieldX_toNat, formatXK_toNat]; have := kk.isLt; have := x.isLt; omega

@[simp] theorem fieldKk_formatXK (op : BitVec 4) (x : Reg) (kk : Byte) : fieldKk (formatXK op x kk) = kk := by
  apply BitVec.eq_of_toNat_eq; rw [fieldKk_toNat, formatXK_toNat]; have := kk.isLt; omega

@[simp] theorem fieldOp_formatXY (op : BitVec 4) (x y : Reg) (n : Nibble) : fieldOp (formatXY op x y n) = op := by
  apply BitVec.eq_of_toNat_eq; rw [fieldOp_toNat, formatXY_toNat]
  have := n.isLt; have := y.isLt; have := x.isLt; omega

@[simp] theorem fieldX_formatXY (op : BitVec 4) (x y : Reg) (n : Nibble) : fieldX (formatXY op x y n) = x := by
  apply BitVec.eq_of_toNat_eq; rw [fieldX_toNat, formatXY_toNat]
  have := n.isLt; have := y.isLt; have := x.isLt; omega

@[simp] theorem fieldY_formatXY (op : BitVec 4) (x y : Reg) (n : Nibble) : fieldY (formatXY op x y n) = y := by
  apply BitVec.eq_of_toNat_eq; rw [fieldY_toNat, formatXY_toNat]
  have := n.isLt; have := y.isLt; omega

@[simp] theorem fieldN_formatXY (op : BitVec 4) (x y : Reg) (n : Nibble) : fieldN (formatXY op x y n) = n := by
  apply BitVec.eq_of_toNat_eq; rw [fieldN_toNat, formatXY_toNat]; have := n.isLt; omega

/-! ### Words and bytes -/

theorem bigEndian_toNat (hi lo : Byte) : (bigEndian hi lo).toNat = hi.toNat * 0x100 + lo.toNat := by
  have := lo.isLt
  simp only [bigEndian, BitVec.toNat_append]
  rw [← Nat.shiftLeft_add_eq_or_of_lt this, Nat.shiftLeft_eq]

@[simp] theorem bigEndian_bytes (w : Word) : bigEndian (highByte w) (lowByte w) = w := by
  apply BitVec.eq_of_toNat_eq
  rw [bigEndian_toNat]
  have := w.isLt
  simp only [highByte, lowByte, BitVec.extractLsb'_toNat, Nat.shiftRight_eq_div_pow]
  omega

end Sys2Proof
end

