-- ==== Sys2Proof/Laws/State.lean ====
section
/-! SUPPORT. One lemma per field per update of State, and what the accessors see of each update; all by rfl. -/

namespace Sys2Proof.Machine

/-! ### withV -/

@[simp] theorem State.withV_v (s : State) (a : Vector Byte 16) : (s.withV a).v = a := rfl
@[simp] theorem State.withV_i (s : State) (a : Vector Byte 16) : (s.withV a).i = s.i := rfl
@[simp] theorem State.withV_pc (s : State) (a : Vector Byte 16) : (s.withV a).pc = s.pc := rfl
@[simp] theorem State.withV_dt (s : State) (a : Vector Byte 16) : (s.withV a).dt = s.dt := rfl
@[simp] theorem State.withV_st (s : State) (a : Vector Byte 16) : (s.withV a).st = s.st := rfl
@[simp] theorem State.withV_sp (s : State) (a : Vector Byte 16) : (s.withV a).sp = s.sp := rfl
@[simp] theorem State.withV_stack (s : State) (a : Vector Byte 16) : (s.withV a).stack = s.stack := rfl
@[simp] theorem State.withV_mem (s : State) (a : Vector Byte 16) : (s.withV a).mem = s.mem := rfl
@[simp] theorem State.withV_display (s : State) (a : Vector Byte 16) : (s.withV a).display = s.display := rfl
@[simp] theorem State.withV_seq (s : State) (a : Vector Byte 16) : (s.withV a).seq = s.seq := rfl
@[simp] theorem State.withV_host (s : State) (a : Vector Byte 16) : (s.withV a).host = s.host := rfl
@[simp] theorem State.withV_readByte (s : State) (a : Vector Byte 16) (n : Nat) : (s.withV a).readByte n = s.readByte n := rfl
@[simp] theorem State.withV_pixel (s : State) (a : Vector Byte 16) (px : Fin 64) (py : Fin 32) :
    (s.withV a).pixel px py = s.pixel px py := rfl
@[simp] theorem State.withV_keyMap (s : State) (a : Vector Byte 16) : (s.withV a).keyMap = s.keyMap := rfl
@[simp] theorem State.withV_randomByte (s : State) (a : Vector Byte 16) : (s.withV a).randomByte = s.randomByte := rfl

/-! ### withI -/

@[simp] theorem State.withI_v (s : State) (a : Word) : (s.withI a).v = s.v := rfl
@[simp] theorem State.withI_i (s : State) (a : Word) : (s.withI a).i = a := rfl
@[simp] theorem State.withI_pc (s : State) (a : Word) : (s.withI a).pc = s.pc := rfl
@[simp] theorem State.withI_dt (s : State) (a : Word) : (s.withI a).dt = s.dt := rfl
@[simp] theorem State.withI_st (s : State) (a : Word) : (s.withI a).st = s.st := rfl
@[simp] theorem State.withI_sp (s : State) (a : Word) : (s.withI a).sp = s.sp := rfl
@[simp] theorem State.withI_stack (s : State) (a : Word) : (s.withI a).stack = s.stack := rfl
@[simp] theorem State.withI_mem (s : State) (a : Word) : (s.withI a).mem = s.mem := rfl
@[simp] theorem State.withI_display (s : State) (a : Word) : (s.withI a).display = s.display := rfl
@[simp] theorem State.withI_seq (s : State) (a : Word) : (s.withI a).seq = s.seq := rfl
@[simp] theorem State.withI_host (s : State) (a : Word) : (s.withI a).host = s.host := rfl
@[simp] theorem State.withI_getV (s : State) (a : Word) (r : Reg) : (s.withI a).getV r = s.getV r := rfl
@[simp] theorem State.withI_readByte (s : State) (a : Word) (n : Nat) : (s.withI a).readByte n = s.readByte n := rfl
@[simp] theorem State.withI_pixel (s : State) (a : Word) (px : Fin 64) (py : Fin 32) :
    (s.withI a).pixel px py = s.pixel px py := rfl
@[simp] theorem State.withI_keyMap (s : State) (a : Word) : (s.withI a).keyMap = s.keyMap := rfl
@[simp] theorem State.withI_randomByte (s : State) (a : Word) : (s.withI a).randomByte = s.randomByte := rfl

/-! ### withPc -/

@[simp] theorem State.withPc_v (s : State) (a : Word) : (s.withPc a).v = s.v := rfl
@[simp] theorem State.withPc_i (s : State) (a : Word) : (s.withPc a).i = s.i := rfl
@[simp] theorem State.withPc_pc (s : State) (a : Word) : (s.withPc a).pc = a := rfl
@[simp] theorem State.withPc_dt (s : State) (a : Word) : (s.withPc a).dt = s.dt := rfl
@[simp] theorem State.withPc_st (s : State) (a : Word) : (s.withPc a).st = s.st := rfl
@[simp] theorem State.withPc_sp (s : State) (a : Word) : (s.withPc a).sp = s.sp := rfl
@[simp] theorem State.withPc_stack (s : State) (a : Word) : (s.withPc a).stack = s.stack := rfl
@[simp] theorem State.withPc_mem (s : State) (a : Word) : (s.withPc a).mem = s.mem := rfl
@[simp] theorem State.withPc_display (s : State) (a : Word) : (s.withPc a).display = s.display := rfl
@[simp] theorem State.withPc_seq (s : State) (a : Word) : (s.withPc a).seq = s.seq := rfl
@[simp] theorem State.withPc_host (s : State) (a : Word) : (s.withPc a).host = s.host := rfl
@[simp] theorem State.withPc_getV (s : State) (a : Word) (r : Reg) : (s.withPc a).getV r = s.getV r := rfl
@[simp] theorem State.withPc_readByte (s : State) (a : Word) (n : Nat) : (s.withPc a).readByte n = s.readByte n := rfl
@[simp] theorem State.withPc_pixel (s : State) (a : Word) (px : Fin 64) (py : Fin 32) :
    (s.withPc a).pixel px py = s.pixel px py := rfl
@[simp] theorem State.withPc_keyMap (s : State) (a : Word) : (s.withPc a).keyMap = s.keyMap := rfl
@[simp] theorem State.withPc_randomByte (s : State) (a : Word) : (s.withPc a).randomByte = s.randomByte := rfl

/-! ### withDt -/

@[simp] theorem State.withDt_v (s : State) (a : Byte) : (s.withDt a).v = s.v := rfl
@[simp] theorem State.withDt_i (s : State) (a : Byte) : (s.withDt a).i = s.i := rfl
@[simp] theorem State.withDt_pc (s : State) (a : Byte) : (s.withDt a).pc = s.pc := rfl
@[simp] theorem State.withDt_dt (s : State) (a : Byte) : (s.withDt a).dt = a := rfl
@[simp] theorem State.withDt_st (s : State) (a : Byte) : (s.withDt a).st = s.st := rfl
@[simp] theorem State.withDt_sp (s : State) (a : Byte) : (s.withDt a).sp = s.sp := rfl
@[simp] theorem State.withDt_stack (s : State) (a : Byte) : (s.withDt a).stack = s.stack := rfl
@[simp] theorem State.withDt_mem (s : State) (a : Byte) : (s.withDt a).mem = s.mem := rfl
@[simp] theorem State.withDt_display (s : State) (a : Byte) : (s.withDt a).display = s.display := rfl
@[simp] theorem State.withDt_seq (s : State) (a : Byte) : (s.withDt a).seq = s.seq := rfl
@[simp] theorem State.withDt_host (s : State) (a : Byte) : (s.withDt a).host = s.host := rfl
@[simp] theorem State.withDt_getV (s : State) (a : Byte) (r : Reg) : (s.withDt a).getV r = s.getV r := rfl
@[simp] theorem State.withDt_readByte (s : State) (a : Byte) (n : Nat) : (s.withDt a).readByte n = s.readByte n := rfl
@[simp] theorem State.withDt_pixel (s : State) (a : Byte) (px : Fin 64) (py : Fin 32) :
    (s.withDt a).pixel px py = s.pixel px py := rfl
@[simp] theorem State.withDt_keyMap (s : State) (a : Byte) : (s.withDt a).keyMap = s.keyMap := rfl
@[simp] theorem State.withDt_randomByte (s : State) (a : Byte) : (s.withDt a).randomByte = s.randomByte := rfl

/-! ### withSt -/

@[simp] theorem State.withSt_v (s : State) (a : Byte) : (s.withSt a).v = s.v := rfl
@[simp] theorem State.withSt_i (s : State) (a : Byte) : (s.withSt a).i = s.i := rfl
@[simp] theorem State.withSt_pc (s : State) (a : Byte) : (s.withSt a).pc = s.pc := rfl
@[simp] theorem State.withSt_dt (s : State) (a : Byte) : (s.withSt a).dt = s.dt := rfl
@[simp] theorem State.withSt_st (s : State) (a : Byte) : (s.withSt a).st = a := rfl
@[simp] theorem State.withSt_sp (s : State) (a : Byte) : (s.withSt a).sp = s.sp := rfl
@[simp] theorem State.withSt_stack (s : State) (a : Byte) : (s.withSt a).stack = s.stack := rfl
@[simp] theorem State.withSt_mem (s : State) (a : Byte) : (s.withSt a).mem = s.mem := rfl
@[simp] theorem State.withSt_display (s : State) (a : Byte) : (s.withSt a).display = s.display := rfl
@[simp] theorem State.withSt_seq (s : State) (a : Byte) : (s.withSt a).seq = s.seq := rfl
@[simp] theorem State.withSt_host (s : State) (a : Byte) : (s.withSt a).host = s.host := rfl
@[simp] theorem State.withSt_getV (s : State) (a : Byte) (r : Reg) : (s.withSt a).getV r = s.getV r := rfl
@[simp] theorem State.withSt_readByte (s : State) (a : Byte) (n : Nat) : (s.withSt a).readByte n = s.readByte n := rfl
@[simp] theorem State.withSt_pixel (s : State) (a : Byte) (px : Fin 64) (py : Fin 32) :
    (s.withSt a).pixel px py = s.pixel px py := rfl
@[simp] theorem State.withSt_keyMap (s : State) (a : Byte) : (s.withSt a).keyMap = s.keyMap := rfl
@[simp] theorem State.withSt_randomByte (s : State) (a : Byte) : (s.withSt a).randomByte = s.randomByte := rfl

/-! ### withSp -/

@[simp] theorem State.withSp_v (s : State) (a : Byte) : (s.withSp a).v = s.v := rfl
@[simp] theorem State.withSp_i (s : State) (a : Byte) : (s.withSp a).i = s.i := rfl
@[simp] theorem State.withSp_pc (s : State) (a : Byte) : (s.withSp a).pc = s.pc := rfl
@[simp] theorem State.withSp_dt (s : State) (a : Byte) : (s.withSp a).dt = s.dt := rfl
@[simp] theorem State.withSp_st (s : State) (a : Byte) : (s.withSp a).st = s.st := rfl
@[simp] theorem State.withSp_sp (s : State) (a : Byte) : (s.withSp a).sp = a := rfl
@[simp] theorem State.withSp_stack (s : State) (a : Byte) : (s.withSp a).stack = s.stack := rfl
@[simp] theorem State.withSp_mem (s : State) (a : Byte) : (s.withSp a).mem = s.mem := rfl
@[simp] theorem State.withSp_display (s : State) (a : Byte) : (s.withSp a).display = s.display := rfl
@[simp] theorem State.withSp_seq (s : State) (a : Byte) : (s.withSp a).seq = s.seq := rfl
@[simp] theorem State.withSp_host (s : State) (a : Byte) : (s.withSp a).host = s.host := rfl
@[simp] theorem State.withSp_getV (s : State) (a : Byte) (r : Reg) : (s.withSp a).getV r = s.getV r := rfl
@[simp] theorem State.withSp_readByte (s : State) (a : Byte) (n : Nat) : (s.withSp a).readByte n = s.readByte n := rfl
@[simp] theorem State.withSp_pixel (s : State) (a : Byte) (px : Fin 64) (py : Fin 32) :
    (s.withSp a).pixel px py = s.pixel px py := rfl
@[simp] theorem State.withSp_keyMap (s : State) (a : Byte) : (s.withSp a).keyMap = s.keyMap := rfl
@[simp] theorem State.withSp_randomByte (s : State) (a : Byte) : (s.withSp a).randomByte = s.randomByte := rfl

/-! ### withStack -/

@[simp] theorem State.withStack_v (s : State) (a : Vector Word 16) : (s.withStack a).v = s.v := rfl
@[simp] theorem State.withStack_i (s : State) (a : Vector Word 16) : (s.withStack a).i = s.i := rfl
@[simp] theorem State.withStack_pc (s : State) (a : Vector Word 16) : (s.withStack a).pc = s.pc := rfl
@[simp] theorem State.withStack_dt (s : State) (a : Vector Word 16) : (s.withStack a).dt = s.dt := rfl
@[simp] theorem State.withStack_st (s : State) (a : Vector Word 16) : (s.withStack a).st = s.st := rfl
@[simp] theorem State.withStack_sp (s : State) (a : Vector Word 16) : (s.withStack a).sp = s.sp := rfl
@[simp] theorem State.withStack_stack (s : State) (a : Vector Word 16) : (s.withStack a).stack = a := rfl
@[simp] theorem State.withStack_mem (s : State) (a : Vector Word 16) : (s.withStack a).mem = s.mem := rfl
@[simp] theorem State.withStack_display (s : State) (a : Vector Word 16) : (s.withStack a).display = s.display := rfl
@[simp] theorem State.withStack_seq (s : State) (a : Vector Word 16) : (s.withStack a).seq = s.seq := rfl
@[simp] theorem State.withStack_host (s : State) (a : Vector Word 16) : (s.withStack a).host = s.host := rfl
@[simp] theorem State.withStack_getV (s : State) (a : Vector Word 16) (r : Reg) : (s.withStack a).getV r = s.getV r := rfl
@[simp] theorem State.withStack_readByte (s : State) (a : Vector Word 16) (n : Nat) : (s.withStack a).readByte n = s.readByte n := rfl
@[simp] theorem State.withStack_pixel (s : State) (a : Vector Word 16) (px : Fin 64) (py : Fin 32) :
    (s.withStack a).pixel px py = s.pixel px py := rfl
@[simp] theorem State.withStack_keyMap (s : State) (a : Vector Word 16) : (s.withStack a).keyMap = s.keyMap := rfl
@[simp] theorem State.withStack_randomByte (s : State) (a : Vector Word 16) : (s.withStack a).randomByte = s.randomByte := rfl

/-! ### withMem -/

@[simp] theorem State.withMem_v (s : State) (a : Memory) : (s.withMem a).v = s.v := rfl
@[simp] theorem State.withMem_i (s : State) (a : Memory) : (s.withMem a).i = s.i := rfl
@[simp] theorem State.withMem_pc (s : State) (a : Memory) : (s.withMem a).pc = s.pc := rfl
@[simp] theorem State.withMem_dt (s : State) (a : Memory) : (s.withMem a).dt = s.dt := rfl
@[simp] theorem State.withMem_st (s : State) (a : Memory) : (s.withMem a).st = s.st := rfl
@[simp] theorem State.withMem_sp (s : State) (a : Memory) : (s.withMem a).sp = s.sp := rfl
@[simp] theorem State.withMem_stack (s : State) (a : Memory) : (s.withMem a).stack = s.stack := rfl
@[simp] theorem State.withMem_mem (s : State) (a : Memory) : (s.withMem a).mem = a := rfl
@[simp] theorem State.withMem_display (s : State) (a : Memory) : (s.withMem a).display = s.display := rfl
@[simp] theorem State.withMem_seq (s : State) (a : Memory) : (s.withMem a).seq = s.seq := rfl
@[simp] theorem State.withMem_host (s : State) (a : Memory) : (s.withMem a).host = s.host := rfl
@[simp] theorem State.withMem_getV (s : State) (a : Memory) (r : Reg) : (s.withMem a).getV r = s.getV r := rfl
@[simp] theorem State.withMem_pixel (s : State) (a : Memory) (px : Fin 64) (py : Fin 32) :
    (s.withMem a).pixel px py = s.pixel px py := rfl
@[simp] theorem State.withMem_keyMap (s : State) (a : Memory) : (s.withMem a).keyMap = s.keyMap := rfl
@[simp] theorem State.withMem_randomByte (s : State) (a : Memory) : (s.withMem a).randomByte = s.randomByte := rfl

/-! ### withDisplay -/

@[simp] theorem State.withDisplay_v (s : State) (a : Plane) : (s.withDisplay a).v = s.v := rfl
@[simp] theorem State.withDisplay_i (s : State) (a : Plane) : (s.withDisplay a).i = s.i := rfl
@[simp] theorem State.withDisplay_pc (s : State) (a : Plane) : (s.withDisplay a).pc = s.pc := rfl
@[simp] theorem State.withDisplay_dt (s : State) (a : Plane) : (s.withDisplay a).dt = s.dt := rfl
@[simp] theorem State.withDisplay_st (s : State) (a : Plane) : (s.withDisplay a).st = s.st := rfl
@[simp] theorem State.withDisplay_sp (s : State) (a : Plane) : (s.withDisplay a).sp = s.sp := rfl
@[simp] theorem State.withDisplay_stack (s : State) (a : Plane) : (s.withDisplay a).stack = s.stack := rfl
@[simp] theorem State.withDisplay_mem (s : State) (a : Plane) : (s.withDisplay a).mem = s.mem := rfl
@[simp] theorem State.withDisplay_display (s : State) (a : Plane) : (s.withDisplay a).display = a := rfl
@[simp] theorem State.withDisplay_seq (s : State) (a : Plane) : (s.withDisplay a).seq = s.seq := rfl
@[simp] theorem State.withDisplay_host (s : State) (a : Plane) : (s.withDisplay a).host = s.host := rfl
@[simp] theorem State.withDisplay_getV (s : State) (a : Plane) (r : Reg) : (s.withDisplay a).getV r = s.getV r := rfl
@[simp] theorem State.withDisplay_readByte (s : State) (a : Plane) (n : Nat) : (s.withDisplay a).readByte n = s.readByte n := rfl
@[simp] theorem State.withDisplay_keyMap (s : State) (a : Plane) : (s.withDisplay a).keyMap = s.keyMap := rfl
@[simp] theorem State.withDisplay_randomByte (s : State) (a : Plane) : (s.withDisplay a).randomByte = s.randomByte := rfl

/-! ### withSeq -/

@[simp] theorem State.withSeq_v (s : State) (a : Seq) : (s.withSeq a).v = s.v := rfl
@[simp] theorem State.withSeq_i (s : State) (a : Seq) : (s.withSeq a).i = s.i := rfl
@[simp] theorem State.withSeq_pc (s : State) (a : Seq) : (s.withSeq a).pc = s.pc := rfl
@[simp] theorem State.withSeq_dt (s : State) (a : Seq) : (s.withSeq a).dt = s.dt := rfl
@[simp] theorem State.withSeq_st (s : State) (a : Seq) : (s.withSeq a).st = s.st := rfl
@[simp] theorem State.withSeq_sp (s : State) (a : Seq) : (s.withSeq a).sp = s.sp := rfl
@[simp] theorem State.withSeq_stack (s : State) (a : Seq) : (s.withSeq a).stack = s.stack := rfl
@[simp] theorem State.withSeq_mem (s : State) (a : Seq) : (s.withSeq a).mem = s.mem := rfl
@[simp] theorem State.withSeq_display (s : State) (a : Seq) : (s.withSeq a).display = s.display := rfl
@[simp] theorem State.withSeq_seq (s : State) (a : Seq) : (s.withSeq a).seq = a := rfl
@[simp] theorem State.withSeq_host (s : State) (a : Seq) : (s.withSeq a).host = s.host := rfl
@[simp] theorem State.withSeq_getV (s : State) (a : Seq) (r : Reg) : (s.withSeq a).getV r = s.getV r := rfl
@[simp] theorem State.withSeq_readByte (s : State) (a : Seq) (n : Nat) : (s.withSeq a).readByte n = s.readByte n := rfl
@[simp] theorem State.withSeq_pixel (s : State) (a : Seq) (px : Fin 64) (py : Fin 32) :
    (s.withSeq a).pixel px py = s.pixel px py := rfl
@[simp] theorem State.withSeq_keyMap (s : State) (a : Seq) : (s.withSeq a).keyMap = s.keyMap := rfl
@[simp] theorem State.withSeq_randomByte (s : State) (a : Seq) : (s.withSeq a).randomByte = s.randomByte := rfl

/-! ### withHost -/

@[simp] theorem State.withHost_v (s : State) (a : HostInputs) : (s.withHost a).v = s.v := rfl
@[simp] theorem State.withHost_i (s : State) (a : HostInputs) : (s.withHost a).i = s.i := rfl
@[simp] theorem State.withHost_pc (s : State) (a : HostInputs) : (s.withHost a).pc = s.pc := rfl
@[simp] theorem State.withHost_dt (s : State) (a : HostInputs) : (s.withHost a).dt = s.dt := rfl
@[simp] theorem State.withHost_st (s : State) (a : HostInputs) : (s.withHost a).st = s.st := rfl
@[simp] theorem State.withHost_sp (s : State) (a : HostInputs) : (s.withHost a).sp = s.sp := rfl
@[simp] theorem State.withHost_stack (s : State) (a : HostInputs) : (s.withHost a).stack = s.stack := rfl
@[simp] theorem State.withHost_mem (s : State) (a : HostInputs) : (s.withHost a).mem = s.mem := rfl
@[simp] theorem State.withHost_display (s : State) (a : HostInputs) : (s.withHost a).display = s.display := rfl
@[simp] theorem State.withHost_seq (s : State) (a : HostInputs) : (s.withHost a).seq = s.seq := rfl
@[simp] theorem State.withHost_host (s : State) (a : HostInputs) : (s.withHost a).host = a := rfl
@[simp] theorem State.withHost_getV (s : State) (a : HostInputs) (r : Reg) : (s.withHost a).getV r = s.getV r := rfl
@[simp] theorem State.withHost_readByte (s : State) (a : HostInputs) (n : Nat) : (s.withHost a).readByte n = s.readByte n := rfl
@[simp] theorem State.withHost_pixel (s : State) (a : HostInputs) (px : Fin 64) (py : Fin 32) :
    (s.withHost a).pixel px py = s.pixel px py := rfl

/-! ### setV, and the host after a draw -/

@[simp] theorem State.setV_i (s : State) (x : Reg) (b : Byte) : (s.setV x b).i = s.i := rfl
@[simp] theorem State.setV_pc (s : State) (x : Reg) (b : Byte) : (s.setV x b).pc = s.pc := rfl
@[simp] theorem State.setV_dt (s : State) (x : Reg) (b : Byte) : (s.setV x b).dt = s.dt := rfl
@[simp] theorem State.setV_st (s : State) (x : Reg) (b : Byte) : (s.setV x b).st = s.st := rfl
@[simp] theorem State.setV_sp (s : State) (x : Reg) (b : Byte) : (s.setV x b).sp = s.sp := rfl
@[simp] theorem State.setV_stack (s : State) (x : Reg) (b : Byte) : (s.setV x b).stack = s.stack := rfl
@[simp] theorem State.setV_mem (s : State) (x : Reg) (b : Byte) : (s.setV x b).mem = s.mem := rfl
@[simp] theorem State.setV_display (s : State) (x : Reg) (b : Byte) : (s.setV x b).display = s.display := rfl
@[simp] theorem State.setV_seq (s : State) (x : Reg) (b : Byte) : (s.setV x b).seq = s.seq := rfl
@[simp] theorem State.setV_host (s : State) (x : Reg) (b : Byte) : (s.setV x b).host = s.host := rfl
@[simp] theorem State.setV_readByte (s : State) (x : Reg) (b : Byte) (n : Nat) : (s.setV x b).readByte n = s.readByte n := rfl
@[simp] theorem State.setV_pixel (s : State) (x : Reg) (b : Byte) (px : Fin 64) (py : Fin 32) :
    (s.setV x b).pixel px py = s.pixel px py := rfl

@[simp] theorem State.afterKeyQuery_v (s : State) : s.afterKeyQuery.v = s.v := rfl
@[simp] theorem State.afterKeyQuery_i (s : State) : s.afterKeyQuery.i = s.i := rfl
@[simp] theorem State.afterKeyQuery_pc (s : State) : s.afterKeyQuery.pc = s.pc := rfl
@[simp] theorem State.afterKeyQuery_dt (s : State) : s.afterKeyQuery.dt = s.dt := rfl
@[simp] theorem State.afterKeyQuery_st (s : State) : s.afterKeyQuery.st = s.st := rfl
@[simp] theorem State.afterKeyQuery_sp (s : State) : s.afterKeyQuery.sp = s.sp := rfl
@[simp] theorem State.afterKeyQuery_stack (s : State) : s.afterKeyQuery.stack = s.stack := rfl
@[simp] theorem State.afterKeyQuery_mem (s : State) : s.afterKeyQuery.mem = s.mem := rfl
@[simp] theorem State.afterKeyQuery_display (s : State) : s.afterKeyQuery.display = s.display := rfl
@[simp] theorem State.afterKeyQuery_seq (s : State) : s.afterKeyQuery.seq = s.seq := rfl
@[simp] theorem State.afterKeyQuery_getV (s : State) (r : Reg) : s.afterKeyQuery.getV r = s.getV r := rfl
@[simp] theorem State.afterKeyQuery_readByte (s : State) (n : Nat) : s.afterKeyQuery.readByte n = s.readByte n := rfl
@[simp] theorem State.afterKeyQuery_pixel (s : State) (px : Fin 64) (py : Fin 32) : s.afterKeyQuery.pixel px py = s.pixel px py := rfl

@[simp] theorem State.afterRandomByte_v (s : State) : s.afterRandomByte.v = s.v := rfl
@[simp] theorem State.afterRandomByte_i (s : State) : s.afterRandomByte.i = s.i := rfl
@[simp] theorem State.afterRandomByte_pc (s : State) : s.afterRandomByte.pc = s.pc := rfl
@[simp] theorem State.afterRandomByte_dt (s : State) : s.afterRandomByte.dt = s.dt := rfl
@[simp] theorem State.afterRandomByte_st (s : State) : s.afterRandomByte.st = s.st := rfl
@[simp] theorem State.afterRandomByte_sp (s : State) : s.afterRandomByte.sp = s.sp := rfl
@[simp] theorem State.afterRandomByte_stack (s : State) : s.afterRandomByte.stack = s.stack := rfl
@[simp] theorem State.afterRandomByte_mem (s : State) : s.afterRandomByte.mem = s.mem := rfl
@[simp] theorem State.afterRandomByte_display (s : State) : s.afterRandomByte.display = s.display := rfl
@[simp] theorem State.afterRandomByte_seq (s : State) : s.afterRandomByte.seq = s.seq := rfl
@[simp] theorem State.afterRandomByte_getV (s : State) (r : Reg) : s.afterRandomByte.getV r = s.getV r := rfl
@[simp] theorem State.afterRandomByte_readByte (s : State) (n : Nat) : s.afterRandomByte.readByte n = s.readByte n := rfl
@[simp] theorem State.afterRandomByte_pixel (s : State) (px : Fin 64) (py : Fin 32) : s.afterRandomByte.pixel px py = s.pixel px py := rfl

/-! ### Reset -/

@[simp] theorem State.reset_i : State.reset.i = 0#16 := rfl
@[simp] theorem State.reset_pc : State.reset.pc = 0#16 := rfl
@[simp] theorem State.reset_dt : State.reset.dt = 0#8 := rfl
@[simp] theorem State.reset_st : State.reset.st = 0#8 := rfl
@[simp] theorem State.reset_sp : State.reset.sp = 0#8 := rfl
@[simp] theorem State.reset_mem : State.reset.mem = [] := rfl
@[simp] theorem State.reset_seq : State.reset.seq = .run := rfl
@[simp] theorem State.reset_moves : State.reset.host.moves = [] := rfl

@[simp] theorem State.reset_getV (r : Reg) : State.reset.getV r = 0#8 := by
  simp [State.reset, State.getV]

@[simp] theorem State.reset_readByte (a : Nat) : State.reset.readByte a = initialByte a := rfl

/-- A register write is read back, and no other register changes (R14: no banks, windows or aliases). -/
theorem State.getV_setV (s : State) (x r : Reg) (b : Byte) : (s.setV x b).getV r = if r = x then b else s.getV r := by
  simp only [State.getV, State.setV, State.withV_v, Vector.getElem_set]
  by_cases h : r = x
  · subst h; simp
  · have : ¬ x.toNat = r.toNat := fun e => h (BitVec.eq_of_toNat_eq e.symm)
    simp [h, this]

@[simp] theorem State.getV_setV_self (s : State) (x : Reg) (b : Byte) : (s.setV x b).getV x = b := by
  simp [State.getV_setV]

theorem State.getV_setV_ne (s : State) {x r : Reg} (b : Byte) (h : r ≠ x) : (s.setV x b).getV r = s.getV r := by
  simp [State.getV_setV, h]

/-- Two states with equal fields are equal, the register file being given by its registers. -/
theorem State.v_ext {s t : State} (h : ∀ r, t.getV r = s.getV r) : t.v = s.v := by
  apply Vector.ext
  intro k hk
  simpa [State.getV, Nat.mod_eq_of_lt hk] using h (BitVec.ofNat 4 k)

end Sys2Proof.Machine
end

