-- ==== Sys2Proof/Laws/Memory.lean ====
section
/-! SUPPORT. The laws of memory: what a store does to every byte, that stores keep the canonical form, and when the
checked accesses succeed. -/

namespace Sys2Proof.Machine

theorem Memory.read_filter_self (m : Memory) (a : Nat) :
    Memory.read (m.filter (fun c => c.1 ≠ a)) a = initialByte a := by
  induction m with
  | nil => rfl
  | cons c m ih =>
    by_cases h : c.1 = a
    · simpa [h] using ih
    · simpa [h, Memory.read] using ih

theorem Memory.read_filter_ne (m : Memory) {a k : Nat} (hk : k ≠ a) :
    Memory.read (m.filter (fun c => c.1 ≠ a)) k = Memory.read m k := by
  induction m with
  | nil => rfl
  | cons c m ih =>
    by_cases h : c.1 = a
    · have hne : ¬ a = k := fun e => hk e.symm
      simpa [h, Memory.read, hne] using ih
    · simp only [ne_eq, decide_not] at ih
      simp [h, Memory.read, ih]

theorem Memory.read_insertCell_self (m : Memory) (a : Nat) (b : Byte) (h : ∀ c ∈ m, c.1 ≠ a) :
    Memory.read (Memory.insertCell a b m) a = b := by
  induction m with
  | nil => simp [Memory.insertCell, Memory.read]
  | cons c m ih =>
    rw [Memory.insertCell]
    split
    · simp [Memory.read]
    · have hc : ¬ c.1 = a := h c (by simp)
      simpa [Memory.read, hc] using ih fun d hd => h d (by simp [hd])

theorem Memory.read_insertCell_ne (m : Memory) {a k : Nat} (b : Byte) (hk : k ≠ a) :
    Memory.read (Memory.insertCell a b m) k = Memory.read m k := by
  have hk' : ¬ a = k := fun e => hk e.symm
  induction m with
  | nil => simp [Memory.insertCell, Memory.read, hk']
  | cons c m ih =>
    rw [Memory.insertCell]
    split <;> simp [Memory.read, hk', ih]

/-- A store gives the byte to its address and leaves every other address alone, whatever the list looks like. -/
theorem Memory.read_write (m : Memory) (a k : Nat) (b : Byte) :
    Memory.read (Memory.write m a b) k = if k = a then b else Memory.read m k := by
  unfold Memory.write
  by_cases hk : k = a
  · subst hk
    split
    · next h => simpa [h] using Memory.read_filter_self m k
    · simpa using Memory.read_insertCell_self _ k b (by intro c hc; simpa using (List.mem_filter.1 hc).2)
  · split
    · simpa [hk] using Memory.read_filter_ne m hk
    · rw [Memory.read_insertCell_ne _ b hk, Memory.read_filter_ne m hk]

/-- A block store gives its k-th byte to the k-th address of the block, and leaves every address outside alone. -/
theorem Memory.read_writeBytes (bs : List Byte) (m : Memory) (a k : Nat) :
    Memory.read (Memory.writeBytes m a bs) k =
      if a ≤ k ∧ k < a + bs.length then bs.getD (k - a) 0 else Memory.read m k := by
  induction bs generalizing m a with
  | nil =>
    simp [Memory.writeBytes]
  | cons b bs ih =>
    rw [Memory.writeBytes, ih, Memory.read_write]
    by_cases hk : k = a
    · subst hk
      simp
    · by_cases hin : a + 1 ≤ k ∧ k < a + 1 + bs.length
      · have h2 : a ≤ k ∧ k < a + (b :: bs).length := by simp only [List.length_cons]; omega
        rw [if_pos hin, if_pos h2]
        obtain ⟨d, hd⟩ : ∃ d, k - a = d + 1 := ⟨k - a - 1, by omega⟩
        have : k - (a + 1) = d := by omega
        rw [hd, this]; simp
      · have h2 : ¬ (a ≤ k ∧ k < a + (b :: bs).length) := by simp only [List.length_cons]; omega
        rw [if_neg hin, if_neg hk, if_neg h2]

/-! ### The canonical form -/

/-- Every address of the list is above `a`, and they strictly rise. -/
def Memory.risingFrom (a : Nat) (m : Memory) : Prop := Memory.rising m = true ∧ ∀ c ∈ m, a < c.1

theorem Memory.rising_cons (c : Host.Cell) (m : Memory) :
    Memory.rising (c :: m) = true ↔ Memory.risingFrom c.1 m := by
  induction m generalizing c with
  | nil => simp [Memory.rising, Memory.risingFrom]
  | cons d m ih =>
    rw [Memory.rising, Bool.and_eq_true, decide_eq_true_eq, ih d]
    constructor
    · rintro ⟨hcd, hr⟩
      refine ⟨(ih d).2 hr, ?_⟩
      intro e he
      rcases List.mem_cons.1 he with rfl | he
      · exact hcd
      · exact lt_trans hcd (hr.2 e he)
    · rintro ⟨hr, hall⟩
      exact ⟨hall d (by simp), (ih d).1 hr⟩

theorem Memory.rising_filter (m : Memory) (p : Host.Cell → Bool) (h : Memory.rising m = true) :
    Memory.rising (m.filter p) = true := by
  induction m with
  | nil => rfl
  | cons c m ih =>
    obtain ⟨hr, hall⟩ := (Memory.rising_cons c m).1 h
    by_cases hp : p c = true
    · rw [List.filter_cons_of_pos hp, Memory.rising_cons]
      exact ⟨ih hr, fun d hd => hall d (List.mem_filter.1 hd).1⟩
    · rw [List.filter_cons_of_neg hp]; exact ih hr

theorem Memory.mem_insertCell (m : Memory) (a : Nat) (b : Byte) (c : Host.Cell) :
    c ∈ Memory.insertCell a b m ↔ c = (a, b) ∨ c ∈ m := by
  induction m with
  | nil => simp [Memory.insertCell]
  | cons d m ih =>
    rw [Memory.insertCell]
    split
    · simp
    · simp only [List.mem_cons, ih]; tauto

theorem Memory.rising_insertCell (m : Memory) (a : Nat) (b : Byte) (h : Memory.rising m = true)
    (hne : ∀ c ∈ m, c.1 ≠ a) : Memory.rising (Memory.insertCell a b m) = true := by
  induction m with
  | nil => rfl
  | cons c m ih =>
    obtain ⟨hr, hall⟩ := (Memory.rising_cons c m).1 h
    rw [Memory.insertCell]
    split
    · next hlt =>
      rw [Memory.rising_cons]
      refine ⟨h, fun d hd => ?_⟩
      rcases List.mem_cons.1 hd with rfl | hd
      · exact hlt
      · exact lt_trans hlt (hall d hd)
    · next hlt =>
      rw [Memory.rising_cons]
      refine ⟨ih hr fun d hd => hne d (by simp [hd]), fun d hd => ?_⟩
      rcases (Memory.mem_insertCell m a b d).1 hd with rfl | hd
      · have := hne c (by simp); omega
      · exact hall d hd

/-- A store keeps the canonical form. -/
theorem Memory.wf_write (m : Memory) (a : Nat) (b : Byte) (h : Memory.wf m = true) :
    Memory.wf (Memory.write m a b) = true := by
  obtain ⟨hr, hall⟩ := Bool.and_eq_true_iff.1 h
  rw [List.all_eq_true] at hall
  have hf := Memory.rising_filter m (fun c => c.1 ≠ a) hr
  unfold Memory.write
  split
  · exact Bool.and_eq_true_iff.2 ⟨hf, List.all_eq_true.2 fun c hc => hall c (List.mem_filter.1 hc).1⟩
  · next hb =>
    refine Bool.and_eq_true_iff.2 ⟨Memory.rising_insertCell _ a b hf ?_, List.all_eq_true.2 fun c hc => ?_⟩
    · intro c hc; simpa using (List.mem_filter.1 hc).2
    · rcases (Memory.mem_insertCell _ a b c).1 hc with rfl | hc
      · simpa using hb
      · exact hall c (List.mem_filter.1 hc).1

/-- A block store keeps the canonical form. -/
theorem Memory.wf_writeBytes (bs : List Byte) (m : Memory) (a : Nat) (h : Memory.wf m = true) :
    Memory.wf (Memory.writeBytes m a bs) = true := by
  induction bs generalizing m a with
  | nil => exact h
  | cons b bs ih => exact ih _ _ (Memory.wf_write m a b h)

/-- A store to an address that exists keeps the listed addresses inside the address space. -/
theorem Memory.bounded_write (m : Memory) (a : Nat) (b : Byte) (ha : a < Config.memSize)
    (h : Memory.bounded m = true) : Memory.bounded (Memory.write m a b) = true := by
  unfold Memory.bounded at h ⊢
  rw [List.all_eq_true] at h ⊢
  intro c hc
  unfold Memory.write at hc
  split at hc
  · exact h c (List.mem_filter.1 hc).1
  · rcases (Memory.mem_insertCell _ a b c).1 hc with rfl | hc
    · simpa using ha
    · exact h c (List.mem_filter.1 hc).1

/-- A block store inside the address space keeps the listed addresses inside it. -/
theorem Memory.bounded_writeBytes (bs : List Byte) (m : Memory) (a : Nat) (ha : a + bs.length ≤ Config.memSize)
    (h : Memory.bounded m = true) : Memory.bounded (Memory.writeBytes m a bs) = true := by
  induction bs generalizing m a with
  | nil => exact h
  | cons b bs ih =>
    simp only [List.length_cons] at ha
    exact ih _ _ (by omega) (Memory.bounded_write m a b (by omega) h)

/-! ### The checked accesses (R36) -/

/-- The bounds check in closed form: the lowest address out of range is the later of `a` and MEM_SIZE. -/
theorem firstOutOfBounds_eq (a n : Nat) :
    firstOutOfBounds a n = if n = 0 ∨ a + n ≤ 4096 then none else some (max a 4096) := by
  unfold firstOutOfBounds
  split
  · next h =>
    rw [List.find?_eq_none]
    intro k hk
    obtain ⟨j, hj, rfl⟩ := List.mem_map.1 hk
    have := List.mem_range.1 hj
    simp only [decide_eq_true_eq, Config.memSize]; omega
  · next h =>
    rw [List.find?_eq_some_iff_append]
    refine ⟨by simp, (List.range (max a 4096 - a)).map (a + ·),
      (List.range' (max a 4096 - a + 1) (n - (max a 4096 - a + 1))).map (a + ·), ?_, ?_⟩
    · have h1 : n = (max a 4096 - a) + 1 + (n - (max a 4096 - a + 1)) := by omega
      conv_lhs => rw [h1]
      rw [List.range_add, List.range_succ, List.map_append, List.map_append, List.map_map, List.range'_eq_map_range]
      simp only [List.map_cons, List.map_nil, List.map_map, List.append_assoc, List.singleton_append]
      congr 2
      omega
    · intro k hk
      obtain ⟨j, hj, rfl⟩ := List.mem_map.1 hk
      have := List.mem_range.1 hj
      simp only [Bool.not_eq_true', decide_eq_false_iff_not, Config.memSize]; omega

/-- The first address of a block that is out of range is the later of `a` and MEM_SIZE (R36). -/
theorem lowest_out_of_bounds {a k : Nat} (h1 : 4096 ≤ a + k) (h2 : ∀ j, j < k → a + j < 4096) : max a 4096 = a + k := by
  cases k with
  | zero => omega
  | succ k => have := h2 k (by omega); omega

/-- MemRead answers the bytes when every address exists, and else the lowest address that does not. -/
theorem State.memRead_eq (s : State) (a n : Nat) :
    s.memRead a n = if n = 0 ∨ a + n ≤ 4096 then .ok ((List.range n).map fun k => s.readByte (a + k))
      else .error (.outOfBounds (max a 4096)) := by
  rw [State.memRead, firstOutOfBounds_eq]
  split <;> simp_all

/-- MemWrite answers the state with the block stored when every address exists, and else the lowest address that does not. -/
theorem State.memWrite_eq (s : State) (a : Nat) (bytes : List Byte) :
    s.memWrite a bytes = if bytes.length = 0 ∨ a + bytes.length ≤ 4096 then
        .ok (s.withMem (Memory.writeBytes s.mem a bytes))
      else .error (.outOfBounds (max a 4096)) := by
  rw [State.memWrite, firstOutOfBounds_eq]
  split <;> simp_all

/-- A block read that answers a next state either read the block and went on, or entered OutOfBounds of an address of the
block that does not exist. -/
theorem State.memRead_next {s t : State} {a n : Nat} {k : List Byte → Result}
    (h : s.orHalt (s.memRead a n) k = .next t) :
    ((n = 0 ∨ a + n ≤ 4096) ∧ k ((List.range n).map fun j => s.readByte (a + j)) = .next t) ∨
    (∃ j, j < n ∧ 4096 ≤ a + j ∧ t = s.withSeq (.halted (.outOfBounds (a + j)))) := by
  rw [State.memRead_eq] at h
  split at h
  · next hc => exact .inl ⟨hc, h⟩
  · next hc =>
    refine .inr ⟨max a 4096 - a, by omega, by omega, ?_⟩
    rw [← Host.Outcome.next.inj h]; congr 3; omega

/-- A block store that answers a next state either stored the block and went on, or entered OutOfBounds of an address of
the block that does not exist. -/
theorem State.memWrite_next {s t : State} {a : Nat} {bytes : List Byte} {k : State → Result}
    (h : s.orHalt (s.memWrite a bytes) k = .next t) :
    ((bytes.length = 0 ∨ a + bytes.length ≤ 4096) ∧ k (s.withMem (Memory.writeBytes s.mem a bytes)) = .next t) ∨
    (∃ j, j < bytes.length ∧ 4096 ≤ a + j ∧ t = s.withSeq (.halted (.outOfBounds (a + j)))) := by
  rw [State.memWrite_eq] at h
  split at h
  · next hc => exact .inl ⟨hc, h⟩
  · next hc =>
    refine .inr ⟨max a 4096 - a, by omega, by omega, ?_⟩
    rw [← Host.Outcome.next.inj h]; congr 3; omega

/-- MemRead16 answers the big-endian word when both addresses exist. -/
theorem State.memRead16_eq (s : State) (a : Nat) :
    s.memRead16 a = if a + 2 ≤ 4096 then .ok (bigEndian (s.readByte a) (s.readByte (a + 1)))
      else .error (.outOfBounds (max a 4096)) := by
  rw [State.memRead16, firstOutOfBounds_eq]
  by_cases h : a + 2 ≤ 4096 <;> simp [h]

/-- What a block store does to every byte of the state. -/
theorem State.readByte_withMem_writeBytes (s : State) (a k : Nat) (bs : List Byte) :
    (s.withMem (Memory.writeBytes s.mem a bs)).readByte k =
      if a ≤ k ∧ k < a + bs.length then bs.getD (k - a) 0 else s.readByte k :=
  Memory.read_writeBytes bs s.mem a k

end Sys2Proof.Machine
end

