-- ==== Sys2Proof/Laws/Ops.lean ====
section
/-! SUPPORT. What each shared operation can do, once: the checked continuation, the call stack, the fetch, the operand
forms, the flags and the register block. The display has its own file. -/

namespace Sys2Proof.Machine

/-! ### Checks and endings -/

@[simp] theorem State.orHalt_ok {α : Type} (s : State) (a : α) (k : α → Result) : s.orHalt (.ok a) k = k a := rfl

@[simp] theorem State.orHalt_error {α : Type} (s : State) (e : HaltReason) (k : α → Result) :
    s.orHalt (.error e) k = .next (s.withSeq (.halted e)) := rfl

/-- A checked continuation that answers a next state either passed the check or entered the check's fault. -/
theorem State.orHalt_next {α : Type} {s t : State} {r : Except HaltReason α} {k : α → Result}
    (h : s.orHalt r k = .next t) :
    (∃ a, r = .ok a ∧ k a = .next t) ∨ (∃ e, r = .error e ∧ t = s.withSeq (.halted e)) := by
  cases r with
  | ok a => exact .inl ⟨a, rfl, h⟩
  | error e => exact .inr ⟨e, rfl, (Host.Outcome.next.inj h).symm⟩

theorem done_eq (s : State) : done s = .next (s.withPc (s.pc + 2#16)) := rfl

theorem jump_eq (t : Word) (s : State) : jump t s = .next (s.withPc t) := rfl

theorem raise_eq (r : HaltReason) (s : State) : raise r s = .next (s.withSeq (.halted r)) := rfl

theorem suspend_eq (x : Reg) (s : State) : suspend x s = .next (s.withSeq (.awaitKey x)) := rfl

theorem skipIf_eq (c : Bool) (s : State) :
    skipIf c s = .next (s.withPc (if c = true then s.pc + 4#16 else s.pc + 2#16)) := rfl

/-! ### The call stack -/

theorem State.push_full (s : State) (v : Word) (k : State → Result) (h : s.sp.toNat = 16) :
    s.push v k = .next (s.withSeq (.halted (.stackOverflow s.pc))) := by
  simp [State.push, h, raise_eq]

theorem State.push_lt (s : State) (v : Word) (k : State → Result) (h : s.sp.toNat < 16) :
    s.push v k = k ((s.withStack (s.stack.set s.sp.toNat v h)).withSp (s.sp + 1#8)) := by
  have h1 : ¬ s.sp.toNat = Config.stackDepth := by simp only [Config.stackDepth]; omega
  simp [State.push, h1, h]

theorem State.pop_empty (s : State) (k : Word → State → Result) (h : s.sp.toNat = 0) :
    s.pop k = .next (s.withSeq (.halted (.stackUnderflow s.pc))) := by
  simp [State.pop, h, raise_eq]

theorem State.pop_pos (s : State) (k : Word → State → Result) (d : Fin 16) (h : s.sp.toNat = d.val + 1) :
    s.pop k = k s.stack[d.val] (s.withSp (s.sp - 1#8)) := by
  have h0 : ¬ s.sp.toNat = 0 := by omega
  have h2 : s.sp.toNat - 1 = d.val := by omega
  have h1 : s.sp.toNat - 1 < 16 := by omega
  simp only [State.pop, h0, if_false, h1, dif_pos]
  congr 2

/-- A push that answers a next state either entered the overflow fault or went on with the entry stored. -/
theorem State.push_next {s t : State} {v : Word} {k : State → Result} (h : s.push v k = .next t) :
    (s.sp.toNat = 16 ∧ t = s.withSeq (.halted (.stackOverflow s.pc))) ∨
    (∃ hs : s.sp.toNat < 16, k ((s.withStack (s.stack.set s.sp.toNat v hs)).withSp (s.sp + 1#8)) = .next t) := by
  rcases lt_trichotomy s.sp.toNat 16 with h16 | h16 | h16
  · rw [s.push_lt v k h16] at h; exact .inr ⟨h16, h⟩
  · rw [s.push_full v k h16] at h; exact .inl ⟨h16, (Host.Outcome.next.inj h).symm⟩
  · have h1 : ¬ s.sp.toNat = Config.stackDepth := by simp only [Config.stackDepth]; omega
    have h2 : ¬ s.sp.toNat < 16 := by omega
    simp [State.push, h1, h2] at h

/-- A pop that answers a next state either entered the underflow fault or went on with the top entry. -/
theorem State.pop_next {s t : State} {k : Word → State → Result} (h : s.pop k = .next t) :
    (s.sp.toNat = 0 ∧ t = s.withSeq (.halted (.stackUnderflow s.pc))) ∨
    (∃ d : Fin 16, s.sp.toNat = d.val + 1 ∧ k s.stack[d.val] (s.withSp (s.sp - 1#8)) = .next t) := by
  by_cases h0 : s.sp.toNat = 0
  · rw [s.pop_empty k h0] at h; exact .inl ⟨h0, (Host.Outcome.next.inj h).symm⟩
  · by_cases h1 : s.sp.toNat - 1 < 16
    · have hd : s.sp.toNat = (⟨s.sp.toNat - 1, h1⟩ : Fin 16).val + 1 := by simp only; omega
      rw [s.pop_pos k ⟨s.sp.toNat - 1, h1⟩ hd] at h
      exact .inr ⟨_, hd, h⟩
    · simp [State.pop, h0, h1] at h

/-! ### Operands -/

theorem rebase_lt {a : Nat} (h : a < 0x200) : rebase a = .error (.outOfBounds a) := by
  simp [rebase, loadBase, h]

theorem rebase_ge {a : Nat} (h : 0x200 ≤ a) : rebase a = .ok (BitVec.ofNat 16 (a - 0x200)) := by
  have : ¬ a < 0x200 := by omega
  simp [rebase, loadBase, this]

/-- A rebased jump that answers a next state either jumped or entered OutOfBounds of the target. -/
theorem rebase_next {s t : State} {a : Nat} (h : s.orHalt (rebase a) (fun w => jump w s) = .next t) :
    (0x200 ≤ a ∧ t = s.withPc (BitVec.ofNat 16 (a - 0x200))) ∨
    (a < 0x200 ∧ t = s.withSeq (.halted (.outOfBounds a))) := by
  rcases Nat.lt_or_ge a 0x200 with c | c
  · rw [rebase_lt c] at h; exact .inr ⟨c, (Host.Outcome.next.inj h).symm⟩
  · rw [rebase_ge c] at h; exact .inl ⟨c, (Host.Outcome.next.inj h).symm⟩

theorem keyIndex_le (p : Config.KeyRangePolicy) {v : Byte} (h : v.toNat ≤ 15) :
    keyIndex p v = .ok (BitVec.ofNat 4 v.toNat) := by
  have : v.toNat < Config.numKeys := by simp only [Config.numKeys]; omega
  simp [keyIndex, this]

theorem keyIndex_gt_fault {v : Byte} (h : 15 < v.toNat) : keyIndex .fault v = .error (.outOfBounds v.toNat) := by
  have : ¬ v.toNat < Config.numKeys := by simp only [Config.numKeys]; omega
  simp [keyIndex, this]

theorem keyIndex_gt_mask {v : Byte} (h : 15 < v.toNat) : keyIndex .mask v = .ok (v.extractLsb' 0 4) := by
  have : ¬ v.toNat < Config.numKeys := by simp only [Config.numKeys]; omega
  simp [keyIndex, this]

@[simp] theorem State.firstRegs_length (s : State) (x : Reg) : (s.firstRegs x).length = x.toNat + 1 := by
  simp [State.firstRegs]

theorem State.firstRegs_getD (s : State) (x : Reg) {k : Nat} (h : k ≤ x.toNat) :
    (s.firstRegs x).getD k 0 = s.getV (BitVec.ofNat 4 k) := by
  have : k < x.toNat + 1 := by omega
  simp [State.firstRegs, List.getD, this]

@[simp] theorem bcdDigits_length (v : Byte) : (bcdDigits v).length = 3 := by simp [bcdDigits]

/-! ### The register block -/

/-- Loading a block writes registers only. -/
theorem State.setVFrom_eq (bs : List Byte) (s : State) (k : Nat) :
    s.setVFrom k bs = s.withV (s.setVFrom k bs).v := by
  induction bs generalizing s k with
  | nil => rfl
  | cons b bs ih => rw [State.setVFrom, ih]; rfl

/-- Loading a block that fits gives register k + j its j-th byte and leaves the other registers alone. -/
theorem State.getV_setVFrom (bs : List Byte) (s : State) (k : Nat) (r : Reg) (h : k + bs.length ≤ 16) :
    (s.setVFrom k bs).getV r =
      if k ≤ r.toNat ∧ r.toNat < k + bs.length then bs.getD (r.toNat - k) 0 else s.getV r := by
  induction bs generalizing s k with
  | nil => simp [State.setVFrom]
  | cons b bs ih =>
    simp only [List.length_cons] at h ⊢
    rw [State.setVFrom, ih _ _ (by omega), State.getV_setV]
    have hk : (BitVec.ofNat 4 k).toNat = k := by simp; omega
    by_cases hr : r.toNat = k
    · have e : r = BitVec.ofNat 4 k := BitVec.eq_of_toNat_eq (by omega)
      have h1 : ¬ (k + 1 ≤ r.toNat ∧ r.toNat < k + 1 + bs.length) := by omega
      have h2 : k ≤ r.toNat ∧ r.toNat < k + (bs.length + 1) := by omega
      have h3 : r.toNat - k = 0 := by omega
      rw [if_neg h1, if_pos e, if_pos h2, h3]; rfl
    · have e : ¬ r = BitVec.ofNat 4 k := fun e => hr (by rw [e, hk])
      by_cases hin : k + 1 ≤ r.toNat ∧ r.toNat < k + 1 + bs.length
      · have h2 : k ≤ r.toNat ∧ r.toNat < k + (bs.length + 1) := by omega
        obtain ⟨d, hd⟩ : ∃ d, r.toNat - k = d + 1 := ⟨r.toNat - k - 1, by omega⟩
        have h3 : r.toNat - (k + 1) = d := by omega
        rw [if_pos hin, if_pos h2, hd, h3]; rfl
      · have h2 : ¬ (k ≤ r.toNat ∧ r.toNat < k + (bs.length + 1)) := by omega
        rw [if_neg hin, if_neg e, if_neg h2]

/-! ### Flags -/

theorem flagByte_toNat (c : Bool) : (flagByte c).toNat = if c = true then 1 else 0 := by cases c <;> rfl

/-- A result and a flag: VF holds the flag, and V[x] the result unless x = F (R95). -/
theorem State.getV_setVAndFlag (s : State) (x r : Reg) (b f : Byte) :
    (s.setVAndFlag x b f).getV r = if r = Reg.vF then f else if r = x then b else s.getV r := by
  simp only [State.setVAndFlag, State.getV_setV]

@[simp] theorem State.setVAndFlag_pc (s : State) (x : Reg) (b f : Byte) : (s.setVAndFlag x b f).pc = s.pc := rfl

/-- Writing a result and a flag changes registers only. -/
theorem State.setVAndFlag_eq (s : State) (x : Reg) (b f : Byte) :
    s.setVAndFlag x b f = s.withV (s.setVAndFlag x b f).v := rfl

/-! ### Fetch -/

theorem pc_odd_iff (w : Word) : w.getLsbD 0 = true ↔ w.toNat % 2 = 1 := by
  simp [BitVec.getLsbD, Nat.testBit_zero]

/-- The fetch in closed form (R68). -/
theorem State.fetch_eq (p : Config.OddPcPolicy) (s : State) :
    s.fetch p = if s.pc.toNat % 2 = 1 ∧ p = .fault then .error (.misalignedFetch s.pc)
      else if 0x200 + s.pc.toNat + 2 ≤ 4096 then
        .ok (bigEndian (s.readByte (0x200 + s.pc.toNat)) (s.readByte (0x200 + s.pc.toNat + 1)))
      else .error (.outOfBounds (max (0x200 + s.pc.toNat) 4096)) := by
  simp only [State.fetch, pc_odd_iff, State.memRead16_eq, loadBase]

/-- A fetch that answers a word read it where PC points; under the policy `fault` the PC was fetchable. -/
theorem State.fetch_ok {p : Config.OddPcPolicy} {s : State} {w : Word} (h : s.fetch p = .ok w) :
    w = bigEndian (s.readByte (0x200 + s.pc.toNat)) (s.readByte (0x200 + s.pc.toNat + 1)) ∧
      0x200 + s.pc.toNat + 2 ≤ 4096 ∧ (p = .fault → s.pc.toNat % 2 = 0) := by
  rw [State.fetch_eq] at h
  split at h
  · cases h
  · next h1 =>
    split at h
    · next h2 => exact ⟨(Except.ok.inj h).symm, h2, fun hp => by simp only [hp, and_true] at h1; omega⟩
    · cases h

end Sys2Proof.Machine
end

