-- ==== Sys2Proof/Laws/Display.lean ====
section
/-! SUPPORT. The display: what SetPixel and a whole draw do to every cell, and which cells a sprite sets. -/

namespace Sys2Proof.Machine

theorem Plane.get_setPixel (p : Plane) (px qx : Fin 64) (py qy : Fin 32) (b : Bool) :
    (p.setPixel px py b).2.get qx qy = if (qx, qy) = (px, py) then (p.get px py ^^ b) else p.get qx qy := by
  simp only [Plane.setPixel, Plane.get, Vector.getElem_set, Prod.mk.injEq]
  by_cases hx : qx = px
  · subst hx
    by_cases hy : qy = py
    · subst hy; simp
    · have : ¬ py.val = qy.val := fun e => hy (Fin.ext e.symm)
      simp [hy, this]
  · have : ¬ px.val = qx.val := fun e => hx (Fin.ext e.symm)
    simp [hx, this]

theorem Plane.clear_get (px : Fin 64) (py : Fin 32) : Plane.clear.get px py = false := by
  simp [Plane.clear, Plane.get]

theorem State.pixel_withDisplay (s : State) (p : Plane) (px : Fin 64) (py : Fin 32) :
    (s.withDisplay p).pixel px py = p.get px py := rfl

/-- Drawing distinct cells toggles exactly them, and collides when one of them was lit. -/
theorem Plane.drawPixels_spec (l : List (Fin 64 × Fin 32)) (hl : l.Nodup) (c : Bool) (p : Plane) :
    (∀ qx qy, (Plane.drawPixels l (c, p)).2.get qx qy = (p.get qx qy ^^ decide ((qx, qy) ∈ l))) ∧
    ((Plane.drawPixels l (c, p)).1 = true ↔ c = true ∨ ∃ q ∈ l, p.get q.1 q.2 = true) := by
  induction l generalizing c p with
  | nil => simp [Plane.drawPixels]
  | cons q l ih =>
    obtain ⟨px, py⟩ := q
    obtain ⟨hq, hl'⟩ := List.nodup_cons.1 hl
    obtain ⟨ih1, ih2⟩ := ih hl' (c || (p.setPixel px py true).1) (p.setPixel px py true).2
    rw [Plane.drawPixels]
    constructor
    · intro qx qy
      rw [ih1, Plane.get_setPixel]
      by_cases e : (qx, qy) = (px, py)
      · have h1 : (qx, qy) ∉ l := by rw [e]; exact hq
        obtain ⟨rfl, rfl⟩ := Prod.mk.injEq .. ▸ e
        simp [h1]
      · simp [e]
    · rw [ih2]
      have h1 : (p.setPixel px py true).1 = p.get px py := by simp [Plane.setPixel]
      have h2 : (∃ q ∈ l, (p.setPixel px py true).2.get q.1 q.2 = true) ↔ ∃ q ∈ l, p.get q.1 q.2 = true := by
        refine exists_congr fun q => and_congr_right fun hm => ?_
        have : ¬ (q.1, q.2) = (px, py) := fun e => hq (by rw [← e]; exact hm)
        rw [Plane.get_setPixel, if_neg this]
      rw [h1, h2]
      simp only [Bool.or_eq_true, List.mem_cons, exists_eq_or_imp, or_assoc]

theorem mem_rowPixels (x0 : Byte) (row : Nat) (b : Byte) (px : Fin 64) (py : Fin 32) :
    (px, py) ∈ rowPixels x0 row b ↔
      ∃ col, col < 8 ∧ b.getLsbD (7 - col) = true ∧ px.val = (x0.toNat + col) % 64 ∧ py.val = row % 32 := by
  simp only [rowPixels, List.mem_map, List.mem_filter, List.mem_range, Prod.mk.injEq]
  constructor
  · rintro ⟨col, ⟨h1, h2⟩, rfl, rfl⟩; exact ⟨col, h1, h2, rfl, rfl⟩
  · rintro ⟨col, h1, h2, hx, hy⟩; exact ⟨col, ⟨h1, h2⟩, Fin.ext hx.symm, Fin.ext hy.symm⟩

theorem nodup_rowPixels (x0 : Byte) (row : Nat) (b : Byte) : (rowPixels x0 row b).Nodup := by
  refine List.Nodup.map_on ?_ (List.nodup_range.filter _)
  intro a ha c hc e
  have ha := List.mem_range.1 (List.mem_filter.1 ha).1
  have hc := List.mem_range.1 (List.mem_filter.1 hc).1
  have e1 : (x0.toNat + a) % 64 = (x0.toNat + c) % 64 := congrArg (fun q => (q.1 : Fin 64).val) e
  omega

theorem mem_spritePixels (x0 : Byte) (row : Nat) (bs : List Byte) (px : Fin 64) (py : Fin 32) :
    (px, py) ∈ spritePixels x0 row bs ↔
      ∃ r col, r < bs.length ∧ col < 8 ∧ (bs.getD r 0).getLsbD (7 - col) = true ∧
        px.val = (x0.toNat + col) % 64 ∧ py.val = (row + r) % 32 := by
  induction bs generalizing row with
  | nil => simp [spritePixels]
  | cons b bs ih =>
    rw [spritePixels, List.mem_append, mem_rowPixels, ih]
    constructor
    · rintro (⟨col, h⟩ | ⟨r, col, h1, h2, h3, h4, h5⟩)
      · exact ⟨0, col, by simp, h⟩
      · exact ⟨r + 1, col, by simpa using h1, h2, by simpa using h3, h4, by rw [h5]; congr 1; omega⟩
    · rintro ⟨r, col, h1, h2, h3, h4, h5⟩
      cases r with
      | zero => exact .inl ⟨col, h2, h3, h4, h5⟩
      | succ r =>
        refine .inr ⟨r, col, by simpa using h1, h2, by simpa using h3, h4, ?_⟩
        rw [h5]; congr 1; omega

theorem nodup_spritePixels (x0 : Byte) (row : Nat) (bs : List Byte) (h : bs.length ≤ 32) :
    (spritePixels x0 row bs).Nodup := by
  induction bs generalizing row with
  | nil => simp [spritePixels]
  | cons b bs ih =>
    simp only [List.length_cons] at h
    rw [spritePixels, List.nodup_append]
    refine ⟨nodup_rowPixels x0 row b, ih (row + 1) (by omega), ?_⟩
    rintro ⟨px, py⟩ h1 ⟨qx, qy⟩ h2 e
    cases e
    obtain ⟨_, _, _, _, hy1⟩ := (mem_rowPixels ..).1 h1
    obtain ⟨r, _, hr, _, _, _, hy2⟩ := (mem_spritePixels ..).1 h2
    omega

/-- The cells that a sprite read from I sets are the ones `spriteBit` names (R115, R117). -/
theorem mem_spritePixels_iff (s : State) (x0 y0 : Byte) (n : Nat) (hn : n ≤ 32) (px : Fin 64) (py : Fin 32) :
    (px, py) ∈ spritePixels x0 y0.toNat ((List.range n).map fun k => s.readByte (s.i.toNat + k)) ↔
      s.spriteBit x0 y0 n px py = true := by
  rw [mem_spritePixels]
  have hx0 := x0.isLt
  have hy0 := y0.isLt
  have hpx := px.isLt
  have hpy := py.isLt
  simp only [List.length_map, List.length_range, State.spriteBit, Bool.and_eq_true, decide_eq_true_eq]
  constructor
  · rintro ⟨r, col, h1, h2, h3, h4, h5⟩
    have e1 : (px.val + 256 - x0.toNat) % 64 = col := by omega
    have e2 : (py.val + 256 - y0.toNat) % 32 = r := by omega
    rw [e1, e2]
    refine ⟨⟨h2, h1⟩, ?_⟩
    simpa [List.getD, h1] using h3
  · rintro ⟨⟨h1, h2⟩, h3⟩
    refine ⟨(py.val + 256 - y0.toNat) % 32, (px.val + 256 - x0.toNat) % 64, h2, h1, ?_, by omega, by omega⟩
    simpa [List.getD, h2] using h3

end Sys2Proof.Machine
end

