-- ==== Sys2Proof/Laws/Instr.lean ====
section
/-! SUPPORT. Inversion of the instructions that end in more than one way: everything a key test, a CALL and a RET can be
when they answer a next state. -/

namespace Sys2Proof.Machine

/-- A key test that answers a next state used the query and moved the PC, or entered OutOfBounds of the value (R91 to R93). -/
theorem keyTest_next {s t : State} {wanted : Bool} {x : Reg} (h : keyTest .fault wanted x s = .next t) :
    ((s.getV x).toNat ≤ 15 ∧
      t = s.afterKeyQuery.withPc
        (if s.keyMap.getLsbD (s.getV x).toNat = wanted then s.pc + 4#16 else s.pc + 2#16)) ∨
    (15 < (s.getV x).toNat ∧ t = s.withSeq (.halted (.outOfBounds (s.getV x).toNat))) := by
  rcases Nat.lt_or_ge 15 (s.getV x).toNat with c | c
  · rw [keyTest, keyIndex_gt_fault c] at h; exact .inr ⟨c, (Host.Outcome.next.inj h).symm⟩
  · rw [keyTest, keyIndex_le _ c, State.orHalt_ok, skipIf_eq] at h
    have e : (BitVec.ofNat 4 (s.getV x).toNat).toNat = (s.getV x).toNat := by simp; omega
    refine .inl ⟨c, ?_⟩
    rw [← Host.Outcome.next.inj h]
    simp only [State.keyDown, e, beq_iff_eq, State.afterKeyQuery_pc]

/-- A CALL that answers a next state overflowed, missed its target, or pushed its own PC and jumped (R84). -/
theorem execCallAddr_next {s t : State} {nnn : Addr} (h : execCallAddr nnn s = .next t) :
    (s.sp.toNat = 16 ∧ t = s.withSeq (.halted (.stackOverflow s.pc))) ∨
    (s.sp.toNat ≠ 16 ∧ nnn.toNat < 0x200 ∧ t = s.withSeq (.halted (.outOfBounds nnn.toNat))) ∨
    (∃ hs : s.sp.toNat < 16, 0x200 ≤ nnn.toNat ∧
      t = ((s.withStack (s.stack.set s.sp.toNat s.pc hs)).withSp (s.sp + 1#8)).withPc
        (BitVec.ofNat 16 (nnn.toNat - 0x200))) := by
  rw [execCallAddr] at h
  split at h
  · next c => exact .inl ⟨c, (Host.Outcome.next.inj h).symm⟩
  · next c =>
    rcases Nat.lt_or_ge nnn.toNat 0x200 with c2 | c2
    · rw [rebase_lt c2] at h; exact .inr (.inl ⟨c, c2, (Host.Outcome.next.inj h).symm⟩)
    · rw [rebase_ge c2, State.orHalt_ok] at h
      rcases State.push_next h with ⟨c3, _⟩ | ⟨hs, h⟩
      · exact absurd c3 c
      · exact .inr (.inr ⟨hs, c2, (Host.Outcome.next.inj h).symm⟩)

/-- A RET that answers a next state underflowed, or popped the top entry and resumed two bytes after it (R82). -/
theorem execRet_next {s t : State} (h : execRet s = .next t) :
    (s.sp.toNat = 0 ∧ t = s.withSeq (.halted (.stackUnderflow s.pc))) ∨
    (∃ d : Fin 16, s.sp.toNat = d.val + 1 ∧
      t = (s.withSp (s.sp - 1#8)).withPc (s.stack[d.val] + 2#16)) := by
  rcases State.pop_next h with ⟨c, rfl⟩ | ⟨d, c, h⟩
  · exact .inl ⟨c, rfl⟩
  · exact .inr ⟨d, c, (Host.Outcome.next.inj h).symm⟩

end Sys2Proof.Machine
end

