-- ==== Sys2Proof/Laws/PerInstr.lean ====
section
/-! SUPPORT. Statements made per instruction. TableRow: the instruction's word matches the mask and pattern of its row of
spec/opcode_table.json (spec/30_encoding.md rule R64: the encoder writes the fixed bits the table gives). -/

namespace Sys2Proof.Laws.TableRow

/-- The word the encoder writes belongs to the instruction's row of the opcode table. -/
def Statement (i : Instr) : Prop := encode i &&& i.row.mask = i.row.pattern

/-! The masks of the table keep the fixed bits of each format and clear the operand fields. -/

theorem formatA_mask (op : BitVec 4) (nnn : Addr) : formatA op nnn &&& 0xF000#16 = formatA op 0#12 := by
  apply BitVec.eq_of_getLsbD_eq
  intro k hk
  simp only [formatA, BitVec.getLsbD_and, BitVec.getLsbD_append]
  interval_cases k <;> simp

theorem formatXK_mask_op (op : BitVec 4) (x : Reg) (kk : Byte) : formatXK op x kk &&& 0xF000#16 = formatXK op 0#4 0#8 := by
  apply BitVec.eq_of_getLsbD_eq
  intro k hk
  simp only [formatXK, BitVec.getLsbD_and, BitVec.getLsbD_append]
  interval_cases k <;> simp

theorem formatXK_mask_fn (op : BitVec 4) (x : Reg) (kk : Byte) : formatXK op x kk &&& 0xF0FF#16 = formatXK op 0#4 kk := by
  apply BitVec.eq_of_getLsbD_eq
  intro k hk
  simp only [formatXK, BitVec.getLsbD_and, BitVec.getLsbD_append]
  interval_cases k <;> simp

theorem formatXY_mask_op (op : BitVec 4) (x y : Reg) (n : Nibble) :
    formatXY op x y n &&& 0xF000#16 = formatXY op 0#4 0#4 0#4 := by
  apply BitVec.eq_of_getLsbD_eq
  intro k hk
  simp only [formatXY, BitVec.getLsbD_and, BitVec.getLsbD_append]
  interval_cases k <;> simp

theorem formatXY_mask_sub (op : BitVec 4) (x y : Reg) (n : Nibble) :
    formatXY op x y n &&& 0xF00F#16 = formatXY op 0#4 0#4 n := by
  apply BitVec.eq_of_getLsbD_eq
  intro k hk
  simp only [formatXY, BitVec.getLsbD_and, BitVec.getLsbD_append]
  interval_cases k <;> simp

theorem cls : Statement .cls := rfl
theorem ret : Statement .ret := rfl
theorem jpAddr (nnn : Addr) : Statement (.jpAddr nnn) := (formatA_mask 0x1#4 nnn).trans rfl
theorem callAddr (nnn : Addr) : Statement (.callAddr nnn) := (formatA_mask 0x2#4 nnn).trans rfl
theorem seVxByte (x : Reg) (kk : Byte) : Statement (.seVxByte x kk) := (formatXK_mask_op 0x3#4 x kk).trans rfl
theorem sneVxByte (x : Reg) (kk : Byte) : Statement (.sneVxByte x kk) := (formatXK_mask_op 0x4#4 x kk).trans rfl
theorem seVxVy (x : Reg) (y : Reg) : Statement (.seVxVy x y) := (formatXY_mask_op 0x5#4 x y 0x0#4).trans rfl
theorem ldVxByte (x : Reg) (kk : Byte) : Statement (.ldVxByte x kk) := (formatXK_mask_op 0x6#4 x kk).trans rfl
theorem addVxByte (x : Reg) (kk : Byte) : Statement (.addVxByte x kk) := (formatXK_mask_op 0x7#4 x kk).trans rfl
theorem ldVxVy (x : Reg) (y : Reg) : Statement (.ldVxVy x y) := (formatXY_mask_sub 0x8#4 x y 0x0#4).trans rfl
theorem orVxVy (x : Reg) (y : Reg) : Statement (.orVxVy x y) := (formatXY_mask_sub 0x8#4 x y 0x1#4).trans rfl
theorem andVxVy (x : Reg) (y : Reg) : Statement (.andVxVy x y) := (formatXY_mask_sub 0x8#4 x y 0x2#4).trans rfl
theorem xorVxVy (x : Reg) (y : Reg) : Statement (.xorVxVy x y) := (formatXY_mask_sub 0x8#4 x y 0x3#4).trans rfl
theorem addVxVy (x : Reg) (y : Reg) : Statement (.addVxVy x y) := (formatXY_mask_sub 0x8#4 x y 0x4#4).trans rfl
theorem subVxVy (x : Reg) (y : Reg) : Statement (.subVxVy x y) := (formatXY_mask_sub 0x8#4 x y 0x5#4).trans rfl
theorem shrVx (x : Reg) (y : Reg) : Statement (.shrVx x y) := (formatXY_mask_sub 0x8#4 x y 0x6#4).trans rfl
theorem subnVxVy (x : Reg) (y : Reg) : Statement (.subnVxVy x y) := (formatXY_mask_sub 0x8#4 x y 0x7#4).trans rfl
theorem shlVx (x : Reg) (y : Reg) : Statement (.shlVx x y) := (formatXY_mask_sub 0x8#4 x y 0xE#4).trans rfl
theorem sneVxVy (x : Reg) (y : Reg) : Statement (.sneVxVy x y) := (formatXY_mask_op 0x9#4 x y 0x0#4).trans rfl
theorem ldIAddr (nnn : Addr) : Statement (.ldIAddr nnn) := (formatA_mask 0xA#4 nnn).trans rfl
theorem jpV0Addr (nnn : Addr) : Statement (.jpV0Addr nnn) := (formatA_mask 0xB#4 nnn).trans rfl
theorem rndVxByte (x : Reg) (kk : Byte) : Statement (.rndVxByte x kk) := (formatXK_mask_op 0xC#4 x kk).trans rfl
theorem drwVxVyN (x : Reg) (y : Reg) (n : Nibble) : Statement (.drwVxVyN x y n) := (formatXY_mask_op 0xD#4 x y n).trans rfl
theorem skpVx (x : Reg) : Statement (.skpVx x) := (formatXK_mask_fn 0xE#4 x 0x9E#8).trans rfl
theorem sknpVx (x : Reg) : Statement (.sknpVx x) := (formatXK_mask_fn 0xE#4 x 0xA1#8).trans rfl
theorem ldVxDt (x : Reg) : Statement (.ldVxDt x) := (formatXK_mask_fn 0xF#4 x 0x07#8).trans rfl
theorem ldVxK (x : Reg) : Statement (.ldVxK x) := (formatXK_mask_fn 0xF#4 x 0x0A#8).trans rfl
theorem ldDtVx (x : Reg) : Statement (.ldDtVx x) := (formatXK_mask_fn 0xF#4 x 0x15#8).trans rfl
theorem ldStVx (x : Reg) : Statement (.ldStVx x) := (formatXK_mask_fn 0xF#4 x 0x18#8).trans rfl
theorem addIVx (x : Reg) : Statement (.addIVx x) := (formatXK_mask_fn 0xF#4 x 0x1E#8).trans rfl
theorem ldFVx (x : Reg) : Statement (.ldFVx x) := (formatXK_mask_fn 0xF#4 x 0x29#8).trans rfl
theorem ldBVx (x : Reg) : Statement (.ldBVx x) := (formatXK_mask_fn 0xF#4 x 0x33#8).trans rfl
theorem ldMemVx (x : Reg) : Statement (.ldMemVx x) := (formatXK_mask_fn 0xF#4 x 0x55#8).trans rfl
theorem ldVxMem (x : Reg) : Statement (.ldVxMem x) := (formatXK_mask_fn 0xF#4 x 0x65#8).trans rfl

end Sys2Proof.Laws.TableRow
end

