-- ==== Sys2Proof/Laws/Step.lean ====
section
/-! SUPPORT. The step, case by case: what it answers for each sequencer state and each move of the host, the instruction
step in closed form, and the inversion of a step that answers a next state. -/

namespace Sys2Proof.Machine

@[simp] theorem State.dropMove_eq (s : State) :
    s.dropMove = s.withHost { s.host with moves := s.host.moves.tail } := rfl

/-- With no move scripted there is nothing to take off. -/
theorem State.dropMove_of_nil {s : State} (h : s.host.moves = []) : s.dropMove = s := by
  cases s with
  | mk v i pc dt st sp stack mem display seq host =>
    cases host with
    | mk moves keys bytes draws => simp only at h; subst h; rfl

theorem step_eq (s : State) : step s = turn .fault s := rfl

/-! ### Run -/

theorem turn_run_nil (p : Config.OddPcPolicy) {s : State} (h : s.seq = .run) (hm : s.host.moves = []) :
    turn p s = instructionStep p s := by
  simp [turn, runStep, h, hm]

theorem turn_run_pass (p : Config.OddPcPolicy) {s : State} {ms : List HostMove} (h : s.seq = .run)
    (hm : s.host.moves = .pass :: ms) : turn p s = instructionStep p s.dropMove := by
  simp [turn, runStep, h, hm]

theorem turn_run_key (p : Config.OddPcPolicy) {s : State} {k : Key} {ms : List HostMove} (h : s.seq = .run)
    (hm : s.host.moves = .key k :: ms) : turn p s = .fault (.keyReportNotAwaited k) := by
  simp [turn, runStep, h, hm]

/-! ### Run or AwaitKey -/

theorem turn_tick (p : Config.OddPcPolicy) {s : State} {ms : List HostMove} (h : s.Live)
    (hm : s.host.moves = .tick :: ms) : turn p s = tickStep s.dropMove := by
  rcases h with h | ⟨x, h⟩ <;> simp [turn, runStep, awaitStep, h, hm]

theorem turn_terminate (p : Config.OddPcPolicy) {s : State} {ms : List HostMove} (h : s.Live)
    (hm : s.host.moves = .terminate :: ms) : turn p s = terminateStep s.dropMove := by
  rcases h with h | ⟨x, h⟩ <;> simp [turn, runStep, awaitStep, h, hm]

/-! ### AwaitKey -/

theorem turn_await_nil (p : Config.OddPcPolicy) {s : State} {x : Reg} (h : s.seq = .awaitKey x)
    (hm : s.host.moves = []) : turn p s = .next s := by
  simp [turn, awaitStep, h, hm]

theorem turn_await_pass (p : Config.OddPcPolicy) {s : State} {x : Reg} {ms : List HostMove}
    (h : s.seq = .awaitKey x) (hm : s.host.moves = .pass :: ms) : turn p s = .next s.dropMove := by
  simp [turn, awaitStep, h, hm]

theorem turn_await_key (p : Config.OddPcPolicy) {s : State} {x : Reg} {k : Key} {ms : List HostMove}
    (h : s.seq = .awaitKey x) (hm : s.host.moves = .key k :: ms) : turn p s = deliverStep x k s.dropMove := by
  simp [turn, awaitStep, h, hm]

/-! ### Halted -/

theorem turn_halted (p : Config.OddPcPolicy) {s : State} {r : HaltReason} (h : s.seq = .halted r) :
    turn p s = .fault (.halted r) := by
  simp [turn, h]

/-- Everything a step with a next state can be (R67). -/
theorem turn_next {p : Config.OddPcPolicy} {s t : State} (h : turn p s = .next t) :
    (s.seq = .run ∧ (s.host.moves = [] ∨ ∃ ms, s.host.moves = .pass :: ms) ∧
      instructionStep p s.dropMove = .next t) ∨
    (s.Live ∧ (∃ ms, s.host.moves = .tick :: ms) ∧ tickStep s.dropMove = .next t) ∨
    (s.Live ∧ (∃ ms, s.host.moves = .terminate :: ms) ∧ t = s.dropMove.withSeq (.halted .terminated)) ∨
    (∃ x, s.seq = .awaitKey x ∧ (s.host.moves = [] ∨ ∃ ms, s.host.moves = .pass :: ms) ∧ t = s.dropMove) ∨
    (∃ x k ms, s.seq = .awaitKey x ∧ s.host.moves = .key k :: ms ∧ deliverStep x k s.dropMove = .next t) := by
  cases hs : s.seq with
  | halted r => rw [turn_halted p hs] at h; cases h
  | run =>
    cases hm : s.host.moves with
    | nil =>
      rw [turn_run_nil p hs hm] at h
      exact .inl ⟨rfl, .inl rfl, by rw [State.dropMove_of_nil hm]; exact h⟩
    | cons m ms =>
      cases m with
      | pass => rw [turn_run_pass p hs hm] at h; exact .inl ⟨rfl, .inr ⟨ms, rfl⟩, h⟩
      | tick => rw [turn_tick p (.inl hs) hm] at h; exact .inr (.inl ⟨.inl hs, ⟨ms, rfl⟩, h⟩)
      | key k => rw [turn_run_key p hs hm] at h; cases h
      | terminate =>
        rw [turn_terminate p (.inl hs) hm] at h
        exact .inr (.inr (.inl ⟨.inl hs, ⟨ms, rfl⟩, (Host.Outcome.next.inj h).symm⟩))
  | awaitKey x =>
    cases hm : s.host.moves with
    | nil =>
      rw [turn_await_nil p hs hm] at h
      exact .inr (.inr (.inr (.inl ⟨x, rfl, .inl rfl, by
        rw [State.dropMove_of_nil hm]; exact (Host.Outcome.next.inj h).symm⟩)))
    | cons m ms =>
      cases m with
      | pass =>
        rw [turn_await_pass p hs hm] at h
        exact .inr (.inr (.inr (.inl ⟨x, rfl, .inr ⟨ms, rfl⟩, (Host.Outcome.next.inj h).symm⟩)))
      | tick => rw [turn_tick p (.inr ⟨x, hs⟩) hm] at h; exact .inr (.inl ⟨.inr ⟨x, hs⟩, ⟨ms, rfl⟩, h⟩)
      | key k => rw [turn_await_key p hs hm] at h; exact .inr (.inr (.inr (.inr ⟨x, k, ms, rfl, rfl, h⟩)))
      | terminate =>
        rw [turn_terminate p (.inr ⟨x, hs⟩) hm] at h
        exact .inr (.inr (.inl ⟨.inr ⟨x, hs⟩, ⟨ms, rfl⟩, (Host.Outcome.next.inj h).symm⟩))

/-! ### The instruction step -/

/-- The instruction step in closed form: the two checks of the fetch, then the decoded variant (R68, R72). -/
theorem instructionStep_eq (p : Config.OddPcPolicy) (s : State) :
    instructionStep p s =
      if s.pc.toNat % 2 = 1 ∧ p = .fault then .next (s.withSeq (.halted (.misalignedFetch s.pc)))
      else if 0x200 + s.pc.toNat + 2 ≤ 4096 then execVariant (decode (s.wordAt s.pc)) s
      else .next (s.withSeq (.halted (.outOfBounds (max (0x200 + s.pc.toNat) 4096)))) := by
  rw [instructionStep, State.fetch_eq]
  split
  · rfl
  · split <;> rfl

/-- At a fetchable PC the instruction step executes what the word there decodes to. -/
theorem instructionStep_fetchable (p : Config.OddPcPolicy) {s : State} (h : fetchable s.pc) :
    instructionStep p s = execVariant (decode (s.wordAt s.pc)) s := by
  obtain ⟨h1, h2⟩ := h
  have h3 : ¬ (s.pc.toNat % 2 = 1 ∧ p = .fault) := by omega
  have h4 : 0x200 + s.pc.toNat + 2 ≤ 4096 := by omega
  rw [instructionStep_eq, if_neg h3, if_pos h4]

/-! ### Runs of several steps -/

/-- A run starts with a step. -/
theorem core_run_succ {s t : State} (n : Nat) (h : step s = .next t) :
    Host.Core.run core (n + 1) s = Host.Core.run core n t := by
  have h' : core.step s = .next t := h
  simp only [Host.Core.run, h']

/-- A run ends with a step. -/
theorem core_run_succ_last {s t u : State} (n : Nat) (h : Host.Core.run core n s = .next t) (hu : step t = .next u) :
    Host.Core.run core (n + 1) s = .next u := by
  induction n generalizing s with
  | zero =>
    have e : s = t := Host.Outcome.next.inj h
    subst e
    exact core_run_succ 0 hu
  | succ n ih =>
    cases hs : step s with
    | next s' => rw [core_run_succ _ hs] at h; rw [core_run_succ _ hs]; exact ih h
    | fault r =>
      have hs' : core.step s = .fault r := hs
      simp [Host.Core.run, hs'] at h
    | refused r =>
      have hs' : core.step s = .refused r := hs
      simp [Host.Core.run, hs'] at h

/-! ### Placing a word -/

/-- The word placed by `withFetchWord` is the one the next step executes, at every PC the fetch accepts. -/
theorem step_withFetchWord (s : State) (nbits w : Nat) (h : fetchable s.pc) :
    step (s.withFetchWord nbits w) =
      execVariant (decode (BitVec.ofNat 16 (w % 2 ^ nbits))) (s.withFetchWord nbits w) := by
  obtain ⟨h1, h2⟩ := h
  have hb : loadBase + s.pc.toNat + 1 < Config.memSize := by simp only [loadBase, Config.memSize]; omega
  have hs : (s.withFetchWord nbits w).seq = .run := by simp [State.withFetchWord, State.placeWord, hb]
  have hm : (s.withFetchWord nbits w).host.moves = [] := by simp [State.withFetchWord, State.placeWord, hb]
  have hp : (s.withFetchWord nbits w).pc = s.pc := by simp [State.withFetchWord, State.placeWord, hb]
  have hf : fetchable (s.withFetchWord nbits w).pc := by rw [hp]; exact ⟨h1, h2⟩
  have hw : (s.withFetchWord nbits w).wordAt (s.withFetchWord nbits w).pc = BitVec.ofNat 16 (w % 2 ^ nbits) := by
    rw [hp, State.wordAt]
    simp only [State.withFetchWord, State.placeWord, hb, if_true, State.readByte, State.withMem_mem]
    rw [Memory.read_writeBytes, Memory.read_writeBytes]
    simp
  rw [step_eq, turn_run_nil _ hs hm, instructionStep_fetchable _ hf, hw]

end Sys2Proof.Machine
end

