-- ==== Sys2Proof/Tests/Slice0.lean ====
section
/-! SUPPORT. Tests: the words of spec/30_encoding.md and spec/opcode_table.json written out bit by bit, the vectors of
spec/95_test_vectors.md (each test names its vector), ill-formed terms that WellFormed refuses, and for every statement
with hypotheses a witness that meets them. -/

namespace Sys2Proof.Tests

-- One theorem at a time: elaborating them side by side takes a thread and an arena of memory each.
set_option Elab.async false

open Sys2Proof.Machine

/-! ### Helpers -/

/-- What `f` sees of a next state; none after a fault or a refusal. -/
def view {α : Type} (f : State → α) : Result → Option α
  | .next t => some (f t)
  | .fault _ => none
  | .refused _ => none

/-- The fault that a result is. -/
def faultOf : Result → Option Fault
  | .next _ => none
  | .fault f => some f
  | .refused _ => none

/-- The refusal that a result is. -/
def refusalOf : Result → Option Refusal
  | .next _ => none
  | .fault _ => none
  | .refused r => some r

/-- A result that `view` sees is a next state. -/
theorem exists_next {r : Result} (h : (view (fun _ => ()) r).isSome = true) : ∃ t, r = .next t := by
  cases r with
  | next t => exact ⟨t, rfl⟩
  | fault f => cases h
  | refused f => cases h

/-- One step that runs the word `w`. -/
def run1 (w : Word) (s : State) : Result := step (s.withFetchWord 16 w.toNat)

/-- The reset state with a register set. -/
def reg (x : Reg) (b : Byte) : State := State.reset.setV x b

/-- The reset state with two registers set. -/
def regs (x : Reg) (b : Byte) (y : Reg) (c : Byte) : State := (reg x b).setV y c

/-- The state with a byte of memory set. -/
def poke (a : Nat) (b : Byte) (s : State) : State := s.withMem (Memory.write s.mem a b)

/-- The state with the host's next key map set. -/
def keysDown (m : BitVec 16) (s : State) : State := s.withHost { s.host with keys := [m] }

/-- The state with the host's next random byte set. -/
def drawing (b : Byte) (s : State) : State := s.withHost { s.host with bytes := [b] }

/-- The state with the host's moves set. -/
def moving (ms : List HostMove) (s : State) : State := s.withHost { s.host with moves := ms }

/-- The listed cells of the display and VF. -/
def cells (l : List (Fin 64 × Fin 32)) (s : State) : List Bool × Byte := (l.map fun q => s.pixel q.1 q.2, s.getV Reg.vF)

/-- The state with a cell of the display lit. -/
def light (x : Fin 64) (y : Fin 32) (s : State) : State := s.withDisplay (s.display.setPixel x y true).2

/-- The result and the flag. -/
def resultFlag (x : Reg) (s : State) : Byte × Byte := (s.getV x, s.getV Reg.vF)

/-! ### Decoding: one word per constructor, bit by bit from its row -/

-- 0000 0000 1110 0000 and 0000 0000 1110 1110
theorem test_decode_cls : decode 0b0000000011100000#16 = .instr .cls := by decide
theorem test_decode_ret : decode 0b0000000011101110#16 = .instr .ret := by decide
-- op, then nnn = 1010 1011 1100
theorem test_decode_jp : decode 0b0001101010111100#16 = .instr (.jpAddr 0xABC#12) := by decide
theorem test_decode_call : decode 0b0010101010111100#16 = .instr (.callAddr 0xABC#12) := by decide
theorem test_decode_ldI : decode 0b1010101010111100#16 = .instr (.ldIAddr 0xABC#12) := by decide
theorem test_decode_jpV0 : decode 0b1011101010111100#16 = .instr (.jpV0Addr 0xABC#12) := by decide
-- op, x = 1010, kk = 0101 1110
theorem test_decode_seByte : decode 0b0011101001011110#16 = .instr (.seVxByte 0xA#4 0x5E#8) := by decide
theorem test_decode_sneByte : decode 0b0100101001011110#16 = .instr (.sneVxByte 0xA#4 0x5E#8) := by decide
theorem test_decode_ldByte : decode 0b0110101001011110#16 = .instr (.ldVxByte 0xA#4 0x5E#8) := by decide
theorem test_decode_addByte : decode 0b0111101001011110#16 = .instr (.addVxByte 0xA#4 0x5E#8) := by decide
theorem test_decode_rnd : decode 0b1100101001011110#16 = .instr (.rndVxByte 0xA#4 0x5E#8) := by decide
-- op, x = 1010, y = 0011, the low nibble
theorem test_decode_se : decode 0b0101101000110000#16 = .instr (.seVxVy 0xA#4 0x3#4) := by decide
theorem test_decode_sne : decode 0b1001101000110000#16 = .instr (.sneVxVy 0xA#4 0x3#4) := by decide
theorem test_decode_ld : decode 0b1000101000110000#16 = .instr (.ldVxVy 0xA#4 0x3#4) := by decide
theorem test_decode_or : decode 0b1000101000110001#16 = .instr (.orVxVy 0xA#4 0x3#4) := by decide
theorem test_decode_and : decode 0b1000101000110010#16 = .instr (.andVxVy 0xA#4 0x3#4) := by decide
theorem test_decode_xor : decode 0b1000101000110011#16 = .instr (.xorVxVy 0xA#4 0x3#4) := by decide
theorem test_decode_add : decode 0b1000101000110100#16 = .instr (.addVxVy 0xA#4 0x3#4) := by decide
theorem test_decode_sub : decode 0b1000101000110101#16 = .instr (.subVxVy 0xA#4 0x3#4) := by decide
theorem test_decode_shr : decode 0b1000101000110110#16 = .instr (.shrVx 0xA#4 0x3#4) := by decide
theorem test_decode_subn : decode 0b1000101000110111#16 = .instr (.subnVxVy 0xA#4 0x3#4) := by decide
theorem test_decode_shl : decode 0b1000101000111110#16 = .instr (.shlVx 0xA#4 0x3#4) := by decide
theorem test_decode_drw : decode 0b1101101000111101#16 = .instr (.drwVxVyN 0xA#4 0x3#4 0xD#4) := by decide
-- op, x = 1010, the low byte
theorem test_decode_skp : decode 0b1110101010011110#16 = .instr (.skpVx 0xA#4) := by decide
theorem test_decode_sknp : decode 0b1110101010100001#16 = .instr (.sknpVx 0xA#4) := by decide
theorem test_decode_ldVxDt : decode 0b1111101000000111#16 = .instr (.ldVxDt 0xA#4) := by decide
theorem test_decode_ldVxK : decode 0b1111101000001010#16 = .instr (.ldVxK 0xA#4) := by decide
theorem test_decode_ldDtVx : decode 0b1111101000010101#16 = .instr (.ldDtVx 0xA#4) := by decide
theorem test_decode_ldStVx : decode 0b1111101000011000#16 = .instr (.ldStVx 0xA#4) := by decide
theorem test_decode_addI : decode 0b1111101000011110#16 = .instr (.addIVx 0xA#4) := by decide
theorem test_decode_ldF : decode 0b1111101000101001#16 = .instr (.ldFVx 0xA#4) := by decide
theorem test_decode_ldB : decode 0b1111101000110011#16 = .instr (.ldBVx 0xA#4) := by decide
theorem test_decode_ldMem : decode 0b1111101001010101#16 = .instr (.ldMemVx 0xA#4) := by decide
theorem test_decode_ldVxMem : decode 0b1111101001100101#16 = .instr (.ldVxMem 0xA#4) := by decide

-- Section 2.1: 0x5127 decodes as 0x5120 does and re-encodes to it; 0x8AB6 keeps its y.
theorem test_reencode :
    (decode 0x5127#16).encode = 0x5120#16 ∧ (decode 0x9AB3#16).encode = 0x9AB0#16 ∧
      (decode 0x8AB6#16).encode = 0x8AB6#16 := by decide

-- R38: the high byte is the first of the two; what follows the two bytes is left over.
theorem test_decodeBytes :
    decodeBytes [0x12#8, 0x0A#8, 0xFF#8] = .ok (.jpAddr 0x20A#12, [0xFF#8]) ∧
      decodeBytes [0x12#8] = .error .truncated ∧ decodeBytes [0x80#8, 0x08#8] = .error (.unknownOpcode 0x8008#16) := by
  decide

-- The host's two questions on one row: the decoder reads it, and it runs as the first instruction after reset.
theorem test_decodeTableWord :
    decodeTableWord 16 0x6A7F = some (.ldVxByte 0xA#4 0x7F#8) ∧ decodeTableWord 16 0x0123 = none := by decide

/-! ### WellFormed: one ill-formed term per check -/

-- R62: an instruction's word is no Unknown word.
theorem test_illFormed_family0 :
    (Variant.unknown 0x00E0#16).wellFormed = false ∧ (Variant.unknown 0x00EE#16).wellFormed = false := by decide
theorem test_illFormed_family8 : (Variant.unknown 0x8AB6#16).wellFormed = false := by decide
theorem test_illFormed_familyE : (Variant.unknown 0xE09E#16).wellFormed = false := by decide
theorem test_illFormed_familyF : (Variant.unknown 0xF033#16).wellFormed = false := by decide
theorem test_illFormed_otherFamilies : (Variant.unknown 0x5127#16).wellFormed = false := by decide
-- R64: the ignored nibble is written as 0; an Unknown word is no encoding of an instruction.
theorem test_notCanonical :
    isCanonicalWord 0x5121#16 = false ∧ isCanonicalWord 0x9AB3#16 = false ∧ isCanonicalWord 0x8008#16 = false := by
  decide

/-! ### Fetch, decode and faults (section 2.1) -/

-- V-FD-1: the last word of memory runs; the fetch after it is out of bounds at 0x1000.
theorem test_vFd1 :
    view (fun t => (t.getV 0#4, t.pc)) (run1 0x6001#16 (State.reset.withPc 0xDFE#16)) = some (0x01#8, 0xE00#16) ∧
      view (fun t => (t.seq, t.pc)) (step (State.reset.withPc 0xE00#16)) =
        some (.halted (.outOfBounds 0x1000), 0xE00#16) := by decide +kernel
-- V-FD-2.
theorem test_vFd2 :
    view (fun t => (t.seq, t.pc)) (run1 0x6001#16 (State.reset.withPc 0x001#16)) =
      some (.halted (.misalignedFetch 0x001#16), 0x001#16) := by decide +kernel
-- V-FD-3: ODD_PC_POLICY = allow.
theorem test_vFd3 :
    view (fun t => (t.getV 1#4, t.pc))
      (turn .allow (poke 0x201 0x61#8 (poke 0x202 0x23#8 (State.reset.withPc 0x001#16)))) =
        some (0x23#8, 0x003#16) := by decide +kernel
-- V-FD-4 and V-FD-5.
theorem test_vFd4 :
    view (fun t => (t.seq, t.pc, t.getV 0#4)) (run1 0x0000#16 ((reg 0#4 0x09#8).withPc 0x006#16)) =
      some (.halted (.unknownOpcode 0x0000#16 0x006#16), 0x006#16, 0x09#8) := by decide +kernel
theorem test_vFd5 :
    view (fun t => t.seq) (run1 0x0123#16 (State.reset.withPc 0x006#16)) =
      some (.halted (.unknownOpcode 0x0123#16 0x006#16)) := by decide +kernel

/-! ### Flow (section 2.2) -/

-- V-FLOW-1, V-FLOW-2.
theorem test_jp : view (fun t => t.pc) (run1 0x1204#16 (State.reset.withPc 0x00A#16)) = some 0x004#16 := by
  decide +kernel
theorem test_jp_below :
    view (fun t => (t.seq, t.pc)) (run1 0x1100#16 (State.reset.withPc 0x00A#16)) =
      some (.halted (.outOfBounds 0x100), 0x00A#16) := by decide +kernel
-- V-FLOW-6, V-FLOW-9.
theorem test_call_sixteenth :
    view (fun t => (t.stack[15], t.sp, t.pc)) (run1 0x2300#16 ((State.reset.withPc 0x008#16).withSp 15#8)) =
      some (0x008#16, 16#8, 0x100#16) := by decide +kernel
theorem test_call_full :
    view (fun t => (t.seq, t.sp)) (run1 0x2100#16 ((State.reset.withPc 0x008#16).withSp 16#8)) =
      some (.halted (.stackOverflow 0x008#16), 16#8) := by decide +kernel
-- V-FLOW-4 (its second step), V-FLOW-5.
theorem test_ret :
    view (fun t => (t.sp, t.pc, t.stack[0]))
      (run1 0x00EE#16 (((State.reset.withStack (State.reset.stack.set 0 0x004#16)).withSp 1#8).withPc 0x010#16)) =
        some (0#8, 0x006#16, 0x004#16) := by decide +kernel
theorem test_ret_empty :
    view (fun t => (t.seq, t.sp)) (run1 0x00EE#16 (State.reset.withPc 0x008#16)) =
      some (.halted (.stackUnderflow 0x008#16), 0#8) := by decide +kernel
-- V-FLOW-11, V-FLOW-13.
theorem test_jpV0_noMask : view (fun t => t.pc) (run1 0xBFFF#16 (reg 0#4 0xFF#8)) = some 0xEFE#16 := by decide +kernel
theorem test_jpV0_below :
    view (fun t => (t.seq, t.pc)) (run1 0xB1F0#16 (reg 0#4 0x0F#8)) = some (.halted (.outOfBounds 0x1FF), 0x000#16) := by
  decide +kernel

/-! ### Skips (section 2.3) -/

-- V-SK-1 to V-SK-4.
theorem test_seByte :
    view (fun t => t.pc) (run1 0x3342#16 (reg 3#4 0x42#8)) = some 0x004#16 ∧
      view (fun t => t.pc) (run1 0x3342#16 (reg 3#4 0x41#8)) = some 0x002#16 := by decide +kernel
theorem test_sneByte :
    view (fun t => t.pc) (run1 0x4342#16 (reg 3#4 0x41#8)) = some 0x004#16 ∧
      view (fun t => t.pc) (run1 0x4342#16 (reg 3#4 0x42#8)) = some 0x002#16 := by decide +kernel
-- V-SK-6, V-SK-7; V-SK-8, V-SK-9.
theorem test_se :
    view (fun t => t.pc) (run1 0x5127#16 (regs 1#4 0x07#8 2#4 0x07#8)) = some 0x004#16 ∧
      view (fun t => t.pc) (run1 0x5120#16 (regs 1#4 0x07#8 2#4 0x08#8)) = some 0x002#16 := by decide +kernel
theorem test_sne :
    view (fun t => t.pc) (run1 0x9120#16 (regs 1#4 0x07#8 2#4 0x08#8)) = some 0x004#16 ∧
      view (fun t => t.pc) (run1 0x9110#16 (reg 1#4 0x07#8)) = some 0x002#16 := by decide +kernel
-- V-SK-10, V-SK-11; V-SK-12, V-SK-13.
theorem test_skp :
    view (fun t => t.pc) (run1 0xE09E#16 (keysDown 0x0020#16 (reg 0#4 0x05#8))) = some 0x004#16 ∧
      view (fun t => t.pc) (run1 0xE09E#16 (keysDown 0x0000#16 (reg 0#4 0x05#8))) = some 0x002#16 := by decide +kernel
theorem test_sknp :
    view (fun t => t.pc) (run1 0xE0A1#16 (keysDown 0x0000#16 (reg 0#4 0x05#8))) = some 0x004#16 ∧
      view (fun t => t.pc) (run1 0xE0A1#16 (keysDown 0x0020#16 (reg 0#4 0x05#8))) = some 0x002#16 := by decide +kernel
-- V-SK-14; V-SK-15 under KEY_RANGE_POLICY = mask.
theorem test_sknp_range :
    view (fun t => (t.seq, t.pc)) (run1 0xE0A1#16 (reg 0#4 0x10#8)) = some (.halted (.outOfBounds 0x10), 0x000#16) ∧
      view (fun t => t.pc) (keyTest .mask false 0#4 (keysDown 0x0001#16 (reg 0#4 0x10#8))) = some 0x002#16 := by
  decide +kernel

/-! ### Arithmetic and logic (section 2.4) -/

-- V-AL-1.
theorem test_ldByte : view (fun t => (t.getV 0xA#4, t.pc)) (run1 0x6A7F#16 State.reset) = some (0x7F#8, 0x002#16) := by
  decide +kernel
-- V-AL-2, V-AL-3.
theorem test_addByte : view (resultFlag 0#4) (run1 0x70FF#16 (regs 0#4 0x01#8 0xF#4 0x55#8)) = some (0x00#8, 0x55#8) := by
  decide +kernel
theorem test_addByte_vF : view (resultFlag 0xF#4) (run1 0x7F01#16 (reg 0xF#4 0xFF#8)) = some (0x00#8, 0x00#8) := by
  decide +kernel
-- V-AL-4.
theorem test_ld : view (fun t => (t.getV 1#4, t.getV 2#4)) (run1 0x8120#16 (reg 2#4 0x33#8)) = some (0x33#8, 0x33#8) := by
  decide +kernel
-- V-AL-5 to V-AL-8.
theorem test_or :
    view (resultFlag 0#4) (run1 0x8011#16 ((regs 0#4 0xF0#8 1#4 0x0F#8).setV 0xF#4 0x77#8)) = some (0xFF#8, 0x77#8) := by
  decide +kernel
theorem test_and :
    view (resultFlag 0#4) (run1 0x8012#16 ((regs 0#4 0xF0#8 1#4 0x0F#8).setV 0xF#4 0x77#8)) = some (0x00#8, 0x77#8) := by
  decide +kernel
theorem test_xor :
    view (fun t => t.getV 0#4) (run1 0x8013#16 (regs 0#4 0xFF#8 1#4 0x0F#8)) = some 0xF0#8 ∧
      view (fun t => t.getV 0#4) (run1 0x8003#16 (reg 0#4 0xA5#8)) = some 0x00#8 := by decide +kernel
-- V-AL-9, V-AL-12; V-AL-13.
theorem test_add :
    view (resultFlag 0#4) (run1 0x8014#16 (regs 0#4 0xFF#8 1#4 0x01#8)) = some (0x00#8, 0x01#8) ∧
      view (resultFlag 0#4) (run1 0x8014#16 (regs 0#4 0x7F#8 1#4 0x80#8)) = some (0xFF#8, 0x00#8) := by decide +kernel
theorem test_add_vF : view (fun t => t.getV 0xF#4) (run1 0x8F14#16 (regs 0xF#4 0xFF#8 1#4 0x01#8)) = some 0x01#8 := by
  decide +kernel
-- V-AL-15, V-AL-16; V-AL-17.
theorem test_sub :
    view (resultFlag 0#4) (run1 0x8015#16 (regs 0#4 0x03#8 1#4 0x05#8)) = some (0xFE#8, 0x00#8) ∧
      view (resultFlag 0#4) (run1 0x8015#16 (regs 0#4 0x05#8 1#4 0x05#8)) = some (0x00#8, 0x01#8) := by decide +kernel
theorem test_sub_vF : view (fun t => t.getV 0xF#4) (run1 0x8F15#16 (regs 0xF#4 0x03#8 1#4 0x05#8)) = some 0x00#8 := by
  decide +kernel
-- V-AL-19, V-AL-20.
theorem test_shr : view (resultFlag 0#4) (run1 0x8016#16 (regs 0#4 0x02#8 1#4 0xFF#8)) = some (0x01#8, 0x00#8) := by
  decide +kernel
theorem test_shr_vF : view (fun t => t.getV 0xF#4) (run1 0x8F06#16 (reg 0xF#4 0x03#8)) = some 0x01#8 := by decide +kernel
-- V-AL-21, V-AL-22; V-AL-23.
theorem test_shl :
    view (resultFlag 0#4) (run1 0x800E#16 (reg 0#4 0x81#8)) = some (0x02#8, 0x01#8) ∧
      view (resultFlag 0#4) (run1 0x800E#16 (reg 0#4 0x7F#8)) = some (0xFE#8, 0x00#8) := by decide +kernel
theorem test_shl_vF : view (fun t => t.getV 0xF#4) (run1 0x8F0E#16 (reg 0xF#4 0x80#8)) = some 0x01#8 := by decide +kernel
-- V-AL-24, V-AL-25; V-AL-26.
theorem test_subn :
    view (resultFlag 0#4) (run1 0x8017#16 (regs 0#4 0x03#8 1#4 0x05#8)) = some (0x02#8, 0x01#8) ∧
      view (resultFlag 0#4) (run1 0x8017#16 (regs 0#4 0x05#8 1#4 0x03#8)) = some (0xFE#8, 0x00#8) := by decide +kernel
theorem test_subn_vF : view (fun t => t.getV 0xF#4) (run1 0x8F17#16 (regs 0xF#4 0x05#8 1#4 0x03#8)) = some 0x00#8 := by
  decide +kernel
-- V-AL-27, V-AL-29.
theorem test_rnd : view (fun t => t.getV 0#4) (run1 0xC00F#16 (drawing 0xAB#8 State.reset)) = some 0x0B#8 := by
  decide +kernel
theorem test_rnd_vF : view (fun t => t.getV 0xF#4) (run1 0xCFFF#16 (drawing 0x5A#8 State.reset)) = some 0x5A#8 := by
  decide +kernel

/-! ### Index and memory (section 2.5) -/

-- V-IM-1.
theorem test_ldI : view (fun t => t.i) (run1 0xA123#16 State.reset) = some 0x123#16 := by decide +kernel
-- V-IM-2, V-IM-3.
theorem test_addI :
    view (fun t => (t.i, t.getV 0xF#4)) (run1 0xF01E#16 ((regs 0#4 0x01#8 0xF#4 0x44#8).withI 0x0FFF#16)) =
      some (0x1000#16, 0x44#8) := by decide +kernel
theorem test_addI_wraps : view (fun t => t.i) (run1 0xF01E#16 ((reg 0#4 0x01#8).withI 0xFFFF#16)) = some 0x0000#16 := by
  decide +kernel
-- V-IM-6, V-IM-8.
theorem test_ldF :
    view (fun t => t.i) (run1 0xF029#16 (reg 0#4 0x1A#8)) = some 0x1E2#16 ∧
      view (fun t => t.i) (run1 0xF029#16 (reg 0#4 0x0F#8)) = some 0x1FB#16 := by decide +kernel
-- V-IM-13, V-IM-12.
theorem test_ldB :
    view (fun t => (t.readByte 0xFFD, t.readByte 0xFFE, t.readByte 0xFFF))
      (run1 0xF033#16 ((reg 0#4 0xFE#8).withI 0xFFD#16)) = some (0x02#8, 0x05#8, 0x04#8) := by decide +kernel
theorem test_ldB_range :
    view (fun t => (t.seq, t.readByte 0xFFE, t.readByte 0xFFF))
      (run1 0xF033#16 (poke 0xFFE 0xAA#8 (poke 0xFFF 0xBB#8 ((reg 0#4 0xFE#8).withI 0xFFE#16)))) =
        some (.halted (.outOfBounds 0x1000), 0xAA#8, 0xBB#8) := by decide +kernel
-- V-IM-15; V-IM-17 with two registers written out.
theorem test_ldMem :
    view (fun t => (t.readByte 0x300, t.readByte 0x301)) (run1 0xF055#16 ((regs 0#4 0x5A#8 1#4 0x77#8).withI 0x300#16)) =
      some (0x5A#8, 0x00#8) := by decide +kernel
theorem test_ldMem_range :
    view (fun t => (t.seq, t.readByte 0xFF1, t.readByte 0xFF2))
      (run1 0xFF55#16 ((regs 0#4 0x01#8 1#4 0x02#8).withI 0xFF1#16)) =
        some (.halted (.outOfBounds 0x1000), 0x00#8, 0x00#8) := by decide +kernel
-- V-IM-18, V-IM-19.
theorem test_ldVxMem :
    view (fun t => (t.getV 0#4, t.getV 1#4, t.getV 2#4, t.getV 3#4, t.getV 4#4, t.getV 5#4))
      (run1 0xF465#16 (State.reset.withI 0x1B0#16)) = some (0xF0#8, 0x90#8, 0x90#8, 0x90#8, 0xF0#8, 0x00#8) := by
  decide +kernel
theorem test_ldVxMem_range :
    view (fun t => (t.seq, t.getV 0#4)) (run1 0xF065#16 ((reg 0#4 0x07#8).withI 0x1000#16)) =
      some (.halted (.outOfBounds 0x1000), 0x07#8) := by decide +kernel

/-! ### Display (section 2.6) -/

-- V-DP-1.
theorem test_cls :
    view (cells [(0, 0), (63, 31)]) (run1 0x00E0#16 (light 0 0 (light 63 31 (reg 0xF#4 0x33#8)))) =
      some ([false, false], 0x33#8) := by decide +kernel
-- V-DP-10: wrap of columns, bit 7 leftmost.
theorem test_drw :
    view (cells [(63, 0), (0, 0), (3, 0), (4, 0), (59, 1), (60, 1), (63, 1), (0, 1), (60, 0)])
      (run1 0xD012#16 (poke 0x300 0x0F#8 (poke 0x301 0xF0#8 ((regs 0#4 60#8 1#4 0#8).withI 0x300#16)))) =
        some ([false, true, true, false, false, true, true, false, false], 0x00#8) := by decide +kernel
-- V-DP-7, its second step: one cleared pixel is a collision.
theorem test_drw_collision :
    view (cells [(0, 0), (1, 0), (2, 0)])
      (run1 0xD011#16 (light 0 0 (poke 0x301 0xC0#8 (State.reset.withI 0x301#16)))) =
        some ([false, true, false], 0x01#8) := by decide +kernel

/-! ### Timers, keys and the host's steps (section 2.7) -/

-- V-TK-1 to V-TK-3.
theorem test_ldVxDt : view (fun t => t.getV 3#4) (run1 0xF307#16 (State.reset.withDt 0x3C#8)) = some 0x3C#8 := by
  decide +kernel
theorem test_ldDtVx : view (fun t => t.dt) (run1 0xF015#16 (reg 0#4 0x3C#8)) = some 0x3C#8 := by decide +kernel
theorem test_ldStVx : view (fun t => t.st) (run1 0xF218#16 (reg 2#4 0x05#8)) = some 0x05#8 := by decide +kernel
-- V-TK-4, V-TK-5.
theorem test_tick :
    view (fun t => (t.dt, t.st)) (step (moving [.tick] ((State.reset.withDt 0x01#8).withSt 0x00#8))) =
      some (0x00#8, 0x00#8) ∧
    view (fun t => (t.dt, t.st)) (step (moving [.tick] ((State.reset.withDt 0x00#8).withSt 0x02#8))) =
      some (0x00#8, 0x01#8) := by decide +kernel
-- V-TK-6, its two steps.
theorem test_ldVxK : view (fun t => (t.seq, t.pc)) (run1 0xF00A#16 State.reset) = some (.awaitKey 0#4, 0x000#16) := by
  decide +kernel
theorem test_deliver :
    view (fun t => (t.getV 0#4, t.pc, t.seq)) (step (moving [.key 0x7#4] (State.reset.withSeq (.awaitKey 0#4)))) =
      some (0x07#8, 0x002#16, .run) := by decide +kernel
-- V-TK-10.
theorem test_terminate :
    view (fun t => (t.seq, t.pc)) (step (moving [.terminate] (State.reset.withSeq (.awaitKey 0#4)))) =
      some (.halted .terminated, 0x000#16) := by decide +kernel
-- V-TK-11.
theorem test_halted :
    faultOf (step (moving [.tick] (State.reset.withSeq (.halted (.unknownOpcode 0x0000#16 0x002#16))))) =
      some (.halted (.unknownOpcode 0x0000#16 0x002#16)) := by decide +kernel

/-! ### Reset and load (section 2.8) -/

-- V-RS-1.
theorem test_load :
    view (fun t => (t.readByte 0x200, t.readByte 0x201, t.readByte 0x202, t.readByte 0x1B0, t.readByte 0x1FF, t.pc))
      (load [0x60#8, 0x05#8]) = some (0x60#8, 0x05#8, 0x00#8, 0xF0#8, 0x80#8, 0x000#16) := by decide +kernel
-- V-RS-2, V-RS-4.
theorem test_load_refused :
    refusalOf (load []) = some (.loadError 0) ∧
      refusalOf (load (List.replicate 3585 0x00#8)) = some (.loadError 3585) := by decide +kernel

/-! ### Witnesses: for each statement with hypotheses, data that meet them, clause by clause

Where a statement's hypotheses are on the machine word, the register or the state alone, the witness is that data at a
boundary value. -/

/-- The reset state with a word at the PC. -/
def at0 (w : Word) : State := State.reset.withFetchWord 16 w.toNat

theorem witness_DecodeOfEncode :
    (Variant.unknown 0x0000#16).wellFormed = true ∧ (Variant.instr (.shrVx 0xA#4 0xB#4)).wellFormed = true := by decide
theorem witness_UnknownWords : decode 0xFFFF#16 = .unknown 0xFFFF#16 ∧ isUnknownWord 0xFFFF#16 = true := by decide
theorem witness_DecodeFollowsTable :
    decode 0x9AB3#16 = .instr (.sneVxVy 0xA#4 0xB#4) ∧ isUnknownWord 0x800F#16 = true ∧
      0x9AB3#16 &&& (Instr.sneVxVy 0xA#4 0xB#4).row.mask = (Instr.sneVxVy 0xA#4 0xB#4).row.pattern ∧
      0x9AB3#16 &&& (Instr.sneVxVy 0x0#4 0x0#4).row.mask = (Instr.sneVxVy 0x0#4 0x0#4).row.pattern := by decide

theorem fetchable_first : fetchable 0x000#16 := by unfold fetchable; decide
theorem fetchable_last : fetchable 0xDFE#16 := by unfold fetchable; decide

theorem witness_StepRunsDecodedInstruction :
    let s := (State.reset.withPc 0xDFE#16).withFetchWord 16 0x6A7F
    s.seq = .run ∧ fetchable s.pc ∧ decode (s.wordAt s.pc) = .instr (.ldVxByte 0xA#4 0x7F#8) ∧ s.host.moves = [] ∧
      (moving [.pass] s).host.moves = .pass :: [] :=
  ⟨by decide +kernel, fetchable_last, by decide +kernel, by decide +kernel, by decide +kernel⟩
theorem witness_UnknownWordHalts :
    (at0 0x0123#16).seq = .run ∧ fetchable (at0 0x0123#16).pc ∧
      decode ((at0 0x0123#16).wordAt (at0 0x0123#16).pc) = .unknown 0x0123#16 ∧ (at0 0x0123#16).host.moves = [] ∧
      (moving [.pass] (at0 0x0123#16)).host.moves = .pass :: [] :=
  ⟨by decide +kernel, fetchable_first, by decide +kernel, by decide +kernel, by decide +kernel⟩
-- An odd PC; the last word; the word half inside memory (with the policy `allow`); the first PC outside.
theorem witness_FetchChecks :
    State.reset.seq = .run ∧ State.reset.host.moves = [] ∧ (0x001#16).toNat % 2 = 1 ∧
      0x200 + (0xDFE#16).toNat + 1 = 4095 ∧ 0x200 + (0xDFF#16).toNat + 1 = 4096 ∧ 0x200 + (0xE00#16).toNat = 4096 := by
  decide
theorem witness_HaltedIsTerminal :
    (State.reset.withSeq (.halted .terminated)).seq = .halted .terminated := by decide +kernel
theorem witness_TickStep :
    State.Live (moving [.tick] State.reset) ∧ (moving [.tick] State.reset).host.moves = .tick :: [] :=
  ⟨.inl rfl, rfl⟩
theorem witness_TickStep_await :
    State.Live (moving [.tick] (State.reset.withSeq (.awaitKey 0xF#4))) := .inr ⟨0xF#4, rfl⟩
theorem witness_KeyDelivery :
    let s := moving [.key 0xF#4, .tick] (State.reset.withSeq (.awaitKey 0xF#4))
    s.seq = .awaitKey 0xF#4 ∧ s.host.moves = .key 0xF#4 :: [.tick] ∧ (0x0#4 : Reg) ≠ 0xF#4 := by decide +kernel
theorem witness_TerminateStep :
    State.Live (moving [.terminate] State.reset) ∧
      (moving [.terminate] State.reset).host.moves = .terminate :: [] := ⟨.inl rfl, rfl⟩
theorem witness_WaitStandsStill :
    let s := State.reset.withSeq (.awaitKey 0x0#4)
    s.seq = .awaitKey 0x0#4 ∧ s.host.moves = [] ∧ (moving [.pass, .tick] s).host.moves = .pass :: [.tick] := by
  decide +kernel
theorem witness_KeyReportOnlyInWait :
    let s := moving [.key 0x3#4] State.reset
    s.seq = .run ∧ s.host.moves = .key 0x3#4 :: [] := by decide +kernel
theorem witness_TicksDecrementTimers :
    State.Live (moving [.tick, .tick, .terminate] State.reset) ∧
      (moving [.tick, .tick, .terminate] State.reset).host.moves = List.replicate 2 .tick ++ [.terminate] :=
  ⟨.inl rfl, rfl⟩
theorem witness_KeyWaitCompletes :
    (moving [.tick, .tick, .key 0x7#4] State.reset).host.moves = List.replicate 2 .tick ++ .key 0x7#4 :: [] ∧
      (0x1#4 : Reg) ≠ 0x0#4 := by decide +kernel
theorem witness_ResetState : 0x1AF < 0x1B0 ∧ 0x200 ≤ 0x200 ∧ 79 < 80 := by decide
theorem witness_LoadPlacesProgram :
    ([] : List Byte).length = 0 ∧ 3584 < (List.replicate 3585 0x00#8).length ∧ 0 < [0x60#8].length ∧
      (List.replicate 3584 0x00#8).length ≤ 3584 ∧ 0 < [0x60#8].length ∧ 0x201 = 0x200 + [0x60#8].length := by
  rw [List.length_replicate, List.length_replicate]
  decide
theorem witness_InvAfterLoad : ∃ s, load [0x60#8, 0x05#8] = .next s := exists_next (by decide +kernel)

/-- An invariant state that is not the reset state: a word at the last place the PC can reach, two calls deep. -/
def midRun (w : Word) : State :=
  (((State.reset.withPc 0xDFE#16).withSp 2#8).withStack (Vector.replicate 16 0x004#16)).withFetchWord 16 w.toNat
theorem midRun_inv (q : Machine.Seq) (w : Word) (hw : Memory.wf (midRun w).mem = true)
    (hb : Memory.bounded (midRun w).mem = true)
    (h : ∀ x, q = .awaitKey x → decode ((midRun w).wordAt 0xDFE#16) = .instr (.ldVxK x)) :
    ((midRun w).withSeq q).Inv := by
  refine ⟨hw, hb, ?_, ?_, ?_, fun x hx => ⟨fetchable_last, h x hx⟩⟩
  · show (2#8).toNat ≤ 16; decide
  · show (0xDFE#16).toNat ≤ 0xEFE; decide
  · intro k
    have hk : ((midRun w).withSeq q).stack[k.val] = 0x004#16 := by
      show (Vector.replicate 16 0x004#16)[k.val] = 0x004#16
      simp
    rw [hk]; unfold fetchable; decide
theorem witness_InvKeptByEveryStep :
    ((midRun 0x00EE#16).withSeq .run).Inv ∧ ∃ t, step ((midRun 0x00EE#16).withSeq .run) = .next t :=
  ⟨midRun_inv .run 0x00EE#16 (by decide +kernel) (by decide +kernel) (fun x h => by cases h), exists_next (by decide +kernel)⟩
theorem witness_InvKeptByEveryStep_await :
    ((midRun 0xF30A#16).withSeq (.awaitKey 0x3#4)).Inv ∧
      ∃ t, step ((midRun 0xF30A#16).withSeq (.awaitKey 0x3#4)) = .next t :=
  ⟨midRun_inv (.awaitKey 0x3#4) 0xF30A#16 (by decide +kernel) (by decide +kernel)
      (fun x h => by cases h; decide +kernel), exists_next (by decide +kernel)⟩
theorem witness_FaultsArePrecise :
    (at0 0x00EE#16).seq = .run ∧ (at0 0x00EE#16).host.moves = [] ∧
      view (fun t => t.seq) (step (at0 0x00EE#16)) = some (.halted (.stackUnderflow 0x000#16)) ∧
      view (fun t => t.seq) (step (moving [.pass] (at0 0x00EE#16))) = some (.halted (.stackUnderflow 0x000#16)) := by
  decide +kernel
-- A form that completes, one that suspends, one that faults.
theorem witness_SequencerAndFaultTable :
    (∃ t, exec (.ldVxK 0xF#4) State.reset = .next t) ∧ (∃ t, exec .cls State.reset = .next t) ∧
      ∃ t, exec (.ldBVx 0x0#4) (State.reset.withI 0xFFE#16) = .next t :=
  ⟨exists_next (by decide +kernel), exists_next (by decide +kernel), exists_next (by decide +kernel)⟩
-- A store that ends at the top of memory, and a byte just below it that it does not touch.
theorem witness_FrameOfEveryInstruction :
    (∃ t, exec (.ldMemVx 0xF#4) (State.reset.withI 0xFF0#16) = .next t) ∧
      (footprintOf (State.reset.withI 0xFF0#16) (.ldMemVx 0xF#4)).bytes 0xFEF = false ∧
      (footprintOf (State.reset.withI 0xFF0#16) (.ldMemVx 0xF#4)).bytes 0xFFF = true :=
  ⟨exists_next (by decide +kernel), by decide +kernel, by decide +kernel⟩
-- Blocks at 4094: two bytes fit, of three the last is the first out of range; words at 4094, 4095 and 4096.
theorem witness_CheckedAccesses :
    (2 < 3 ∧ 4096 ≤ 4094 + 2 ∧ ∀ j, j < 2 → 4094 + j < 4096) ∧ (∀ k, k < 2 → 4094 + k < 4096) ∧
      2 < [1#8, 2#8, 3#8].length ∧ (∀ k, k < [1#8, 2#8].length → 4094 + k < 4096) ∧
      (4093 < 4094 ∨ 4094 + [1#8, 2#8].length ≤ 4096) ∧
      4094 + 1 < 4096 ∧ 4095 + 1 = 4096 ∧ 4096 ≤ 4096 := by
  refine ⟨⟨by decide, by decide, fun j hj => by omega⟩, fun k hk => by omega, by decide, ?_, by decide, by decide, by decide,
    by decide⟩
  intro k hk
  have : [1#8, 2#8].length = 2 := rfl
  omega
theorem witness_DisplaySinkContract : ((63 : Fin 64), (0 : Fin 32)) ≠ ((63 : Fin 64), (31 : Fin 32)) := by decide
-- For the statements that speak of the registers other than x, and other than VF: such registers exist.
theorem witness_otherRegister :
    (0xE#4 : Reg) ≠ 0xF#4 ∧ (0x0#4 : Reg) ≠ 0xF#4 ∧ (0x0#4 : Reg) ≠ 0xE#4 ∧ (0xF#4 : Reg) = Reg.vF := by decide
-- x = F is no VF ≠ x; x = E is.
theorem witness_AddWithCarry : (0xE#4 : Reg) ≠ Reg.vF := by decide
theorem witness_SubtractWithBorrow : (0xE#4 : Reg) ≠ Reg.vF := by decide
theorem witness_ShiftsByOne : (0xE#4 : Reg) ≠ Reg.vF := by decide
theorem witness_RandomMasked :
    (drawing 0xAB#8 State.reset).host.bytes = 0xAB#8 :: [] ∧ State.reset.host.bytes = [] := by decide +kernel
theorem witness_SkipsOnByte : (reg 3#4 0x42#8).getV 3#4 = 0x42#8 ∧ (reg 3#4 0x42#8).getV 3#4 ≠ 0x41#8 := by
  decide +kernel
theorem witness_SkipsOnRegisters :
    (regs 1#4 0x07#8 2#4 0x07#8).getV 1#4 = (regs 1#4 0x07#8 2#4 0x07#8).getV 2#4 ∧
      (regs 1#4 0x07#8 2#4 0x08#8).getV 1#4 ≠ (regs 1#4 0x07#8 2#4 0x08#8).getV 2#4 := by decide +kernel
-- The last key index, down and up; a scripted map and none.
theorem witness_SkipsOnKey :
    ((reg 0#4 0x0F#8).getV 0#4).toNat ≤ 15 ∧ (keysDown 0x8000#16 (reg 0#4 0x0F#8)).keyMap.getLsbD 15 = true ∧
      (keysDown 0x7FFF#16 (reg 0#4 0x0F#8)).keyMap.getLsbD 15 = false ∧
      (keysDown 0x8000#16 (reg 0#4 0x0F#8)).host.keys = 0x8000#16 :: [] ∧ State.reset.host.keys = [] := by decide +kernel
theorem witness_KeyIndexAboveFifteen : 15 < ((reg 0#4 0x10#8).getV 0#4).toNat := by decide +kernel
theorem witness_JumpToAddress : 0x200 ≤ (0x200#12).toNat ∧ (0x1FF#12).toNat < 0x200 := by decide
theorem witness_JumpToAddressPlusV0 :
    0x200 ≤ (0x1F0#12).toNat + ((reg 0#4 0x10#8).getV 0#4).toNat ∧
      (0x1F0#12).toNat + ((reg 0#4 0x0F#8).getV 0#4).toNat < 0x200 := by decide +kernel
theorem witness_CallSubroutine :
    (State.reset.withSp 16#8).sp.toNat = 16 ∧ (State.reset.withSp 15#8).sp.toNat < 16 ∧
      (0x1FF#12).toNat < 0x200 ∧ 0x200 ≤ (0x200#12).toNat := by decide +kernel
theorem witness_ReturnFromSubroutine :
    State.reset.sp.toNat = 0 ∧ (State.reset.withSp 1#8).sp.toNat = (0 : Fin 16).val + 1 ∧
      (State.reset.withSp 16#8).sp.toNat = (15 : Fin 16).val + 1 := by decide +kernel
theorem witness_NestedCallsReturn :
    (∀ a ∈ List.replicate 16 (0x200#12 : Addr), 0x200 ≤ a.toNat) ∧
      State.reset.sp.toNat + (List.replicate 16 (0x200#12 : Addr)).length ≤ 16 ∧
      List.replicate 16 (0x200#12 : Addr) ≠ [] :=
  ⟨fun a ha => by rw [List.eq_of_mem_replicate ha]; decide, by decide, by simp⟩
theorem witness_JumpReachesAddress :
    (0x200 ≤ (0xFFE#12).toNat ∧ (0xFFE#12).toNat % 2 = 0) ∧ 0x200 ≤ (0x200#12).toNat ∧ (0x200#12).toNat % 2 = 0 := by
  decide
-- I = 0xFFD fits; I = 0xFFE does not, its third byte is the first missing one; I = 0x1000 misses at once.
theorem witness_StoreDecimalDigits :
    (0xFFD#16).toNat + 3 ≤ 4096 ∧ (2 < 3 ∧ 4096 ≤ (0xFFE#16).toNat + 2 ∧ ∀ j, j < 2 → (0xFFE#16).toNat + j < 4096) ∧
      (0 < 3 ∧ 4096 ≤ (0x1000#16).toNat + 0) := by decide
theorem witness_StoreRegisters :
    (0xFF0#16).toNat + (0xF#4).toNat < 4096 ∧ (0xF#4).toNat ≤ (0xF#4).toNat ∧
      (15 ≤ (0xF#4).toNat ∧ 4096 ≤ (0xFF1#16).toNat + 15 ∧ ∀ j, j < 15 → (0xFF1#16).toNat + j < 4096) := by decide
theorem witness_LoadRegisters :
    (0xFF0#16).toNat + (0xF#4).toNat < 4096 ∧
      (15 ≤ (0xF#4).toNat ∧ 4096 ≤ (0xFF1#16).toNat + 15 ∧ ∀ j, j < 15 → (0xFF1#16).toNat + j < 4096) := by decide
theorem witness_StoreThenLoadRestores :
    (State.reset.withI 0xFF0#16).i.toNat + (0xF#4 : Reg).toNat < 4096 := by decide +kernel
-- P7's store: V0 and V1 to the word after the next instruction's address.
theorem witness_StoredCodeIsFetched :
    let s := (State.reset.withPc 0x008#16).withI 0x20A#16
    s.seq = .run ∧ s.host.moves = [] ∧ fetchable (s.pc + 2#16) ∧ s.i.toNat + (0x1#4 : Reg).toNat < 4096 ∧
      (0x0#4 : Reg).toNat < (0x1#4 : Reg).toNat ∧ s.i.toNat + (0x0#4 : Reg).toNat = 0x200 + (s.pc + 2#16).toNat := by
  refine ⟨by decide +kernel, by decide +kernel, ?_, by decide +kernel, by decide, by decide +kernel⟩
  show fetchable (0x008#16 + 2#16)
  unfold fetchable
  decide
-- A sprite of one lit row on the dark and on the lit display; n = 0 outside memory; n = 3 at 0xFFE.
theorem witness_DrawSprite :
    (0#4 : Nibble) = 0#4 ∧ (0xFFF#16).toNat + (1#4 : Nibble).toNat ≤ 4096 ∧
      ((light 63 0 (poke 0x300 0x80#8 (State.reset.withI 0x300#16))).pixel 63 0 = true ∧
        (light 63 0 (poke 0x300 0x80#8 (State.reset.withI 0x300#16))).spriteBit 63#8 0#8 1 63 0 = true) ∧
      (∀ px py, State.reset.pixel px py = true → State.reset.spriteBit 0#8 0#8 1 px py = false) ∧
      (2 < (3#4 : Nibble).toNat ∧ 4096 ≤ (0xFFE#16).toNat + 2 ∧ ∀ j, j < 2 → (0xFFE#16).toNat + j < 4096) := by
  refine ⟨rfl, by decide, by decide +kernel, fun px py h => ?_, by decide, by decide, by decide⟩
  have h' : State.reset.pixel px py = false := by simp [State.pixel, State.reset, Plane.get]
  rw [h'] at h; cases h
theorem witness_DrawTwiceRestores :
    (0x0#4 : Reg) ≠ Reg.vF ∧ (0xE#4 : Reg) ≠ Reg.vF ∧
      (State.reset.withI 0x1B0#16).i.toNat + (5#4 : Nibble).toNat ≤ 4096 ∧
      (State.reset.withI 0x1B0#16).pixel 0 0 = false ∧ (State.reset.withI 0x1B0#16).spriteBit 0#8 0#8 5 0 0 = true := by
  decide +kernel
theorem witness_DrawTwiceRestores_noRows :
    (State.reset.withI 0x1000#16).i.toNat + (0#4 : Nibble).toNat ≤ 4096 ∧
      ∀ px py, (State.reset.withI 0x1000#16).pixel px py = false →
        (State.reset.withI 0x1000#16).spriteBit 0#8 0#8 (0#4 : Nibble).toNat px py = false :=
  ⟨by decide +kernel, fun px py _ => by simp [State.spriteBit]⟩
-- P1's end: JP 0x20A at PC = 0x00A.
theorem witness_ParkedStandsStill : ((State.reset.withPc 0x00A#16).withFetchWord 16 0x120A).Parked :=
  ⟨by decide +kernel, by show fetchable 0x00A#16; unfold fetchable; decide, 0x20A#12, by decide +kernel, by decide +kernel⟩

end Sys2Proof.Tests
end

section
/-! Proofs of the statements of spec/20_memory.md: the checked accesses of section 2 (R36, R37), assembled from the closed
forms of Laws/Memory.lean. -/

namespace Sys2Proof.Machine

/-- The side condition of the closed forms, from the reading of R36 address by address. -/
theorem block_fits {a n : Nat} (h : ∀ k, k < n → a + k < 4096) : n = 0 ∨ a + n ≤ 4096 := by
  cases n with
  | zero => exact .inl rfl
  | succ n => exact .inr (h n (Nat.lt_succ_self n))

theorem State.memRead_ok (s : State) {a n : Nat} (h : ∀ k, k < n → a + k < 4096) :
    s.memRead a n = .ok ((List.range n).map fun k => s.readByte (a + k)) := by
  rw [State.memRead_eq, if_pos (block_fits h)]

theorem State.memRead_outOfBounds (s : State) {a n k : Nat} (hk : k < n) (hout : 4096 ≤ a + k)
    (hlow : ∀ j, j < k → a + j < 4096) : s.memRead a n = .error (.outOfBounds (a + k)) := by
  rw [State.memRead_eq, if_neg (by omega), lowest_out_of_bounds hout hlow]

theorem State.memWrite_ok (s : State) {a : Nat} {bs : List Byte} (h : ∀ k, k < bs.length → a + k < 4096) :
    s.memWrite a bs = .ok (s.withMem (Memory.writeBytes s.mem a bs)) := by
  rw [State.memWrite_eq, if_pos (block_fits h)]

theorem State.memWrite_outOfBounds (s : State) {a k : Nat} {bs : List Byte} (hk : k < bs.length) (hout : 4096 ≤ a + k)
    (hlow : ∀ j, j < k → a + j < 4096) : s.memWrite a bs = .error (.outOfBounds (a + k)) := by
  rw [State.memWrite_eq, if_neg (by omega), lowest_out_of_bounds hout hlow]

theorem State.readByte_writeBytes_inside (s : State) {a k : Nat} {bs : List Byte} (hk : k < bs.length) :
    (s.withMem (Memory.writeBytes s.mem a bs)).readByte (a + k) = bs.getD k 0#8 := by
  rw [State.readByte_withMem_writeBytes, if_pos (by omega), Nat.add_sub_cancel_left]
  rfl

theorem State.readByte_writeBytes_outside (s : State) {a c : Nat} {bs : List Byte} (hc : c < a ∨ a + bs.length ≤ c) :
    (s.withMem (Memory.writeBytes s.mem a bs)).readByte c = s.readByte c := by
  rw [State.readByte_withMem_writeBytes, if_neg (by omega)]

theorem State.memRead16_ok (s : State) {a : Nat} (h : a + 1 < 4096) :
    s.memRead16 a = .ok (bigEndian (s.readByte a) (s.readByte (a + 1))) := by
  rw [State.memRead16_eq, if_pos (by omega)]

theorem State.memRead16_outOfBounds (s : State) {a : Nat} (h : 4096 ≤ a + 1) :
    s.memRead16 a = .error (.outOfBounds (max a 4096)) := by
  rw [State.memRead16_eq, if_neg (by omega)]

/-- Settles O25: every clause is a branch of the closed form of its access, and the recorded address is the later of the
block's first and MEM_SIZE. -/
theorem checkedAccesses : Obligations.CheckedAccesses := by
  intro s a
  refine ⟨fun n k => s.memRead_outOfBounds, fun n => s.memRead_ok, fun bs k => s.memWrite_outOfBounds, ?write,
    ?firstOut, ?secondOut, ?word⟩
  case write =>
    intro bs h
    exact ⟨_, s.memWrite_ok h, fun k => s.readByte_writeBytes_inside, fun c => s.readByte_writeBytes_outside, rfl⟩
  case firstOut =>
    intro h
    rw [s.memRead16_outOfBounds (by omega), max_eq_left h]
  case secondOut =>
    intro h
    rw [s.memRead16_outOfBounds h.ge, h, max_eq_right (by omega)]
  case word =>
    intro h
    exact ⟨_, s.memRead16_ok h, bigEndian_toNat _ _⟩

end Sys2Proof.Machine
end

section
/-! Proofs of the statements of spec/41_flow.md: RET (R82), from the two ways a pop can go in Laws/Ops.lean. -/

namespace Sys2Proof.Machine

theorem exec_ret (s : State) : exec .ret s = execRet s := rfl

theorem encodedAs_ret : EncodedAs .ret 0x00EE#16 := ⟨rfl, by decide⟩

theorem execRet_empty {s : State} (h : s.sp.toNat = 0) :
    execRet s = .next (s.withSeq (.halted (.stackUnderflow s.pc))) := by
  rw [execRet, s.pop_empty _ h]

theorem execRet_pos {s : State} (k : Fin 16) (h : s.sp.toNat = k.val + 1) :
    execRet s = .next ((s.withSp (s.sp - 1#8)).withPc (s.stack[k.val] + 2#16)) := by
  rw [execRet, s.pop_pos _ k h, jump]

/-- The decrement of SP does not wrap when an entry is in use (R21, R23). -/
theorem sp_sub_one_toNat {sp : Byte} {k : Nat} (h : sp.toNat = k + 1) : (sp - 1#8).toNat = k := by
  bv_omega

/-- Settles O41: an empty stack and a top entry are the two ways a pop can go, and the next state of each is written out. -/
theorem returnFromSubroutine : Obligations.ReturnFromSubroutine := by
  intro s
  refine ⟨encodedAs_ret, ?empty, ?popped⟩
  case empty =>
    intro h
    rw [exec_ret, execRet_empty h]
  case popped =>
    intro k h
    refine ⟨_, (exec_ret s).trans (execRet_pos k h), ?_, ?_, ?_, ?_⟩
    · rw [State.withPc_pc, BitVec.toNat_add]; rfl
    · rw [State.withPc_sp, State.withSp_sp, sp_sub_one_toNat h]
    · rw [State.withPc_stack, State.withSp_stack]
    · rw [State.withPc_pc, State.withPc_sp, State.withSp_sp]

end Sys2Proof.Machine
end

section
/-! Proofs of the statements of spec/42_skip.md: SE Vx,byte and SNE Vx,byte (R87, R88). -/

namespace Sys2Proof.Machine

theorem encodedAs_seVxByte (x : Reg) (kk : Byte) : EncodedAs (.seVxByte x kk) (formatXK 0x3#4 x kk) :=
  ⟨rfl, by simp [decode]⟩

theorem encodedAs_sneVxByte (x : Reg) (kk : Byte) : EncodedAs (.sneVxByte x kk) (formatXK 0x4#4 x kk) :=
  ⟨rfl, by simp [decode]⟩

theorem skipIf_true {c : Bool} (h : c = true) (s : State) : skipIf c s = .next (s.withPc (s.pc + 4#16)) := by
  rw [skipIf_eq, if_pos h]

theorem skipIf_false {c : Bool} (h : c = false) (s : State) : skipIf c s = .next (s.withPc (s.pc + 2#16)) := by
  rw [skipIf_eq, if_neg (Bool.eq_false_iff.mp h)]

theorem exec_seVxByte (x : Reg) (kk : Byte) (s : State) : exec (.seVxByte x kk) s = skipIf (s.getV x == kk) s := rfl

theorem exec_sneVxByte (x : Reg) (kk : Byte) (s : State) : exec (.sneVxByte x kk) s = skipIf (s.getV x != kk) s := rfl

/-- Settles O34: each test is V[x] against the immediate, so equality and inequality each decide both skips. -/
theorem skipsOnByte : Obligations.SkipsOnByte := by
  intro x kk s
  refine ⟨encodedAs_seVxByte x kk, encodedAs_sneVxByte x kk, ?equal, ?different⟩
  case equal =>
    intro h
    rw [exec_seVxByte, exec_sneVxByte]
    exact ⟨skipIf_true (beq_iff_eq.mpr h) s, skipIf_false (bne_eq_false_iff_eq.mpr h) s⟩
  case different =>
    intro h
    rw [exec_seVxByte, exec_sneVxByte]
    exact ⟨skipIf_false (beq_eq_false_iff_ne.mpr h) s, skipIf_true (bne_iff_ne.mpr h) s⟩

end Sys2Proof.Machine
end

section
/-! Proofs of the statements of spec/43_alu.md: the register loads (R96, R98), two uses of one completing register write. -/

namespace Sys2Proof.Machine

theorem encodedAs_ldVxByte (x : Reg) (kk : Byte) : EncodedAs (.ldVxByte x kk) (formatXK 0x6#4 x kk) :=
  ⟨rfl, by simp [decode]⟩

theorem encodedAs_ldVxVy (x y : Reg) : EncodedAs (.ldVxVy x y) (formatXY 0x8#4 x y 0x0#4) :=
  ⟨rfl, by simp [decode, decodeFamily8]⟩

theorem exec_ldVxByte (x : Reg) (kk : Byte) (s : State) : exec (.ldVxByte x kk) s = done (s.setV x kk) := rfl

theorem exec_ldVxVy (x y : Reg) (s : State) : exec (.ldVxVy x y) s = done (s.setV x (s.getV y)) := rfl

/-- An instruction that writes one register and completes, whatever the value (R96, R98). -/
theorem done_setV_writes (s : State) (x : Reg) (b : Byte) :
    ∃ t, done (s.setV x b) = .next t ∧ t.getV x = b ∧ (∀ r, r ≠ x → t.getV r = s.getV r) ∧ s.AdvancedTo t := by
  refine ⟨_, done_eq _, ?written, ?others, ?pc, ?seq⟩
  case written => rw [State.withPc_getV, State.getV_setV_self]
  case others =>
    intro r hr
    rw [State.withPc_getV, State.getV_setV_ne s b hr]
  case pc => rw [State.withPc_pc, State.setV_pc]
  case seq => rw [State.withPc_seq, State.setV_seq]

/-- Settles O27: both loads are a completing write of one register, of kk and of the old V[y]. -/
theorem registerLoads : Obligations.RegisterLoads := by
  intro x y kk s
  refine ⟨encodedAs_ldVxByte x kk, encodedAs_ldVxVy x y, ?byte, ?register⟩
  case byte =>
    rw [exec_ldVxByte]
    exact done_setV_writes s x kk
  case register =>
    rw [exec_ldVxVy]
    exact done_setV_writes s x (s.getV y)

end Sys2Proof.Machine
end

section
/-! Proofs of the statements of spec/44_index_memory.md: LD I,addr (R109), a completing write of I. -/

namespace Sys2Proof.Machine

theorem encodedAs_ldIAddr (nnn : Addr) : EncodedAs (.ldIAddr nnn) (formatA 0xA#4 nnn) :=
  ⟨rfl, by simp [decode]⟩

theorem exec_ldIAddr (nnn : Addr) (s : State) : exec (.ldIAddr nnn) s = done (s.withI (nnn.zeroExtend 16)) := rfl

/-- An instruction that writes I and completes, whatever the value: the whole next state (R109 to R111). -/
theorem done_withI_writes (s : State) (a : Word) :
    ∃ t, done (s.withI a) = .next t ∧ t.i = a ∧ t = (s.withI t.i).withPc (s.pc + 2#16) := by
  refine ⟨_, done_eq _, ?written, ?whole⟩
  case written => rw [State.withPc_i, State.withI_i]
  case whole => rw [State.withPc_i, State.withI_i, State.withI_pc]

/-- Settles O44: LD I,addr is a completing write of I, and zero extension keeps the address. -/
theorem loadIndex : Obligations.LoadIndex := by
  intro nnn s
  obtain ⟨t, hnext, hi, hwhole⟩ := done_withI_writes s (nnn.zeroExtend 16)
  refine ⟨encodedAs_ldIAddr nnn, t, ?next, ?value, hwhole⟩
  case next => rw [exec_ldIAddr, hnext]
  case value => rw [hi, BitVec.toNat_setWidth_of_le (by decide)]

end Sys2Proof.Machine
end

section
/-! Proofs of the statements of spec/45_display.md: CLS (R116), a completing write of the dark plane. -/

namespace Sys2Proof.Machine

theorem encodedAs_cls : EncodedAs .cls 0x00E0#16 := ⟨rfl, by decide⟩

theorem exec_cls (s : State) : exec .cls s = done (s.withDisplay Plane.clear) := rfl

/-- An instruction that writes the display and completes, whatever the plane: the whole next state (R116, R117). -/
theorem done_withDisplay_writes (s : State) (p : Plane) :
    ∃ t, done (s.withDisplay p) = .next t ∧ t.display = p ∧ t = (s.withDisplay t.display).withPc (s.pc + 2#16) := by
  refine ⟨_, done_eq _, ?written, ?whole⟩
  case written => rw [State.withPc_display, State.withDisplay_display]
  case whole => rw [State.withPc_display, State.withDisplay_display, State.withDisplay_pc]

/-- Settles O51: CLS is a completing write of the plane whose every cell is 0. -/
theorem clearScreen : Obligations.ClearScreen := by
  intro s
  obtain ⟨t, hnext, hdark, hwhole⟩ := done_withDisplay_writes s Plane.clear
  refine ⟨encodedAs_cls, t, ?next, ?cells, hwhole⟩
  case next => rw [exec_cls, hnext]
  case cells =>
    intro px py
    rw [State.pixel, hdark, Plane.clear_get]

end Sys2Proof.Machine
end

section
/-! Proofs of the statements of spec/60_exceptions.md: the contract of the Display Sink in section 7 (R140, R141). -/

namespace Sys2Proof.Machine

/-- The sink's answer: a lit pixel was turned off (R140). -/
theorem Plane.setPixel_answer (p : Plane) (px : Fin 64) (py : Fin 32) (b : Bool) :
    (p.setPixel px py b).1 = (p.get px py && b) := rfl

theorem Plane.get_setPixel_self (p : Plane) (px : Fin 64) (py : Fin 32) (b : Bool) :
    (p.setPixel px py b).2.get px py = (p.get px py ^^ b) := by
  rw [Plane.get_setPixel, if_pos rfl]

theorem Plane.get_setPixel_ne (p : Plane) {px qx : Fin 64} {py qy : Fin 32} (b : Bool) (h : (qx, qy) ≠ (px, py)) :
    (p.setPixel px py b).2.get qx qy = p.get qx qy := by
  rw [Plane.get_setPixel, if_neg h]

/-- Settles O26: the written cell and the others are the two branches of `Plane.get_setPixel`, beside the sink's answer;
the cleared plane is dark. -/
theorem displaySinkContract : Obligations.DisplaySinkContract := by
  refine ⟨?setPixel, Plane.clear_get⟩
  case setPixel =>
    intro p px py b
    exact ⟨p.setPixel_answer px py b, p.get_setPixel_self px py b, fun _ _ => p.get_setPixel_ne b⟩

end Sys2Proof.Machine
end

section
/-! Proofs of the statements of spec/30_encoding.md: the encoder and the decoder are inverse to each other, word by word and
row by row (R52 to R64). One lemma, `decode_cases`, says what decoding a word gives. -/

namespace Sys2Proof

/-! ### A word is made of its fields -/

theorem formatA_of_fields {w : Word} {op : BitVec 4} (hop : (fieldOp w).toNat = op.toNat) :
    formatA op (fieldNnn w) = w := by
  apply BitVec.eq_of_toNat_eq
  rw [formatA_toNat, fieldNnn_toNat, ← hop, fieldOp_toNat]
  omega

theorem formatXK_of_fields {w : Word} {op : BitVec 4} {kk : Byte} (hop : (fieldOp w).toNat = op.toNat)
    (hkk : (fieldKk w).toNat = kk.toNat) : formatXK op (fieldX w) kk = w := by
  apply BitVec.eq_of_toNat_eq
  rw [formatXK_toNat, fieldX_toNat, ← hop, ← hkk, fieldOp_toNat, fieldKk_toNat]
  omega

theorem formatXY_of_fields {w : Word} {op : BitVec 4} {n : Nibble} (hop : (fieldOp w).toNat = op.toNat)
    (hn : (fieldN w).toNat = n.toNat) : formatXY op (fieldX w) (fieldY w) n = w := by
  apply BitVec.eq_of_toNat_eq
  rw [formatXY_toNat, fieldX_toNat, fieldY_toNat, ← hop, ← hn, fieldOp_toNat, fieldN_toNat]
  omega

/-! ### Decoding what the encoder writes -/

theorem decode_encode (i : Instr) : decode (encode i) = .instr i := by
  cases i with
  | cls | ret => decide
  | jpAddr | callAddr | ldIAddr | jpV0Addr => simp [encode, decode]
  | seVxByte | sneVxByte | ldVxByte | addVxByte | rndVxByte => simp [encode, decode]
  | seVxVy | sneVxVy | drwVxVyN => simp [encode, decode]
  | ldVxVy | orVxVy | andVxVy | xorVxVy | addVxVy | subVxVy | shrVx | subnVxVy | shlVx =>
    simp [encode, decode, decodeFamily8]
  | skpVx | sknpVx => simp [encode, decode, decodeFamilyE]
  | ldVxDt | ldVxK | ldDtVx | ldStVx | addIVx | ldFVx | ldBVx | ldMemVx | ldVxMem =>
    simp [encode, decode, decodeFamilyF]

theorem encodedAs_encode (i : Instr) : Machine.EncodedAs i (encode i) := ⟨rfl, decode_encode i⟩

/-- Every instruction's word belongs to its row of the opcode table. -/
theorem encode_matches_row : (i : Instr) → encode i &&& i.row.mask = i.row.pattern
  | .cls => Laws.TableRow.cls
  | .ret => Laws.TableRow.ret
  | .jpAddr nnn => Laws.TableRow.jpAddr nnn
  | .callAddr nnn => Laws.TableRow.callAddr nnn
  | .seVxByte x kk => Laws.TableRow.seVxByte x kk
  | .sneVxByte x kk => Laws.TableRow.sneVxByte x kk
  | .seVxVy x y => Laws.TableRow.seVxVy x y
  | .ldVxByte x kk => Laws.TableRow.ldVxByte x kk
  | .addVxByte x kk => Laws.TableRow.addVxByte x kk
  | .ldVxVy x y => Laws.TableRow.ldVxVy x y
  | .orVxVy x y => Laws.TableRow.orVxVy x y
  | .andVxVy x y => Laws.TableRow.andVxVy x y
  | .xorVxVy x y => Laws.TableRow.xorVxVy x y
  | .addVxVy x y => Laws.TableRow.addVxVy x y
  | .subVxVy x y => Laws.TableRow.subVxVy x y
  | .shrVx x y => Laws.TableRow.shrVx x y
  | .subnVxVy x y => Laws.TableRow.subnVxVy x y
  | .shlVx x y => Laws.TableRow.shlVx x y
  | .sneVxVy x y => Laws.TableRow.sneVxVy x y
  | .ldIAddr nnn => Laws.TableRow.ldIAddr nnn
  | .jpV0Addr nnn => Laws.TableRow.jpV0Addr nnn
  | .rndVxByte x kk => Laws.TableRow.rndVxByte x kk
  | .drwVxVyN x y n => Laws.TableRow.drwVxVyN x y n
  | .skpVx x => Laws.TableRow.skpVx x
  | .sknpVx x => Laws.TableRow.sknpVx x
  | .ldVxDt x => Laws.TableRow.ldVxDt x
  | .ldVxK x => Laws.TableRow.ldVxK x
  | .ldDtVx x => Laws.TableRow.ldDtVx x
  | .ldStVx x => Laws.TableRow.ldStVx x
  | .addIVx x => Laws.TableRow.addIVx x
  | .ldFVx x => Laws.TableRow.ldFVx x
  | .ldBVx x => Laws.TableRow.ldBVx x
  | .ldMemVx x => Laws.TableRow.ldMemVx x
  | .ldVxMem x => Laws.TableRow.ldVxMem x

/-! ### The Unknown words, family by family (R62) -/

theorem isUnknownWord_family0 {w : Word} (h : (fieldOp w).toNat = 0x0) :
    isUnknownWord w = !([0x00E0, 0x00EE].contains w.toNat) := by
  rw [fieldOp_toNat] at h
  simp [isUnknownWord, h]

theorem isUnknownWord_family8 {w : Word} (h : (fieldOp w).toNat = 0x8) :
    isUnknownWord w = [0x8, 0x9, 0xA, 0xB, 0xC, 0xD, 0xF].contains (fieldN w).toNat := by
  rw [fieldOp_toNat] at h
  rw [fieldN_toNat]
  simp [isUnknownWord, h]

theorem isUnknownWord_familyE {w : Word} (h : (fieldOp w).toNat = 0xE) :
    isUnknownWord w = !([0x9E, 0xA1].contains (fieldKk w).toNat) := by
  rw [fieldOp_toNat] at h
  rw [fieldKk_toNat]
  simp [isUnknownWord, h]

theorem isUnknownWord_familyF {w : Word} (h : (fieldOp w).toNat = 0xF) :
    isUnknownWord w =
      !([0x07, 0x0A, 0x15, 0x18, 0x1E, 0x29, 0x33, 0x55, 0x65].contains (fieldKk w).toNat) := by
  rw [fieldOp_toNat] at h
  rw [fieldKk_toNat]
  simp [isUnknownWord, h]

/-- The other families hold no Unknown word. -/
theorem isUnknownWord_of_full_family {w : Word} {op : Nat} (h : (fieldOp w).toNat = op)
    (hop : op ∉ [0x0, 0x8, 0xE, 0xF]) : isUnknownWord w = false := by
  rw [fieldOp_toNat] at h
  simp only [List.mem_cons, List.not_mem_nil, or_false, not_or] at hop
  simp [isUnknownWord, h, hop]

/-! ### What decoding gives -/

/-- A word with the nibble that the decoder ignores, the low one of families 5 and 9, written as 0 (R61, R64). -/
def clearIgnoredNibble (w : Word) : Word :=
  if w.toNat / 0x1000 = 5 ∨ w.toNat / 0x1000 = 9 then BitVec.ofNat 16 (w.toNat / 0x10 * 0x10) else w

theorem clearIgnoredNibble_of_ne {w : Word} (h5 : (fieldOp w).toNat ≠ 5) (h9 : (fieldOp w).toNat ≠ 9) :
    clearIgnoredNibble w = w := by
  rw [fieldOp_toNat] at h5 h9
  rw [clearIgnoredNibble, if_neg (by omega)]

theorem formatXY_eq_clearIgnoredNibble {w : Word} {op : BitVec 4} (hop : (fieldOp w).toNat = op.toNat)
    (h : op = 0x5#4 ∨ op = 0x9#4) : formatXY op (fieldX w) (fieldY w) 0x0#4 = clearIgnoredNibble w := by
  have h59 : w.toNat / 0x1000 = 5 ∨ w.toNat / 0x1000 = 9 := by
    rw [← fieldOp_toNat, hop]
    rcases h with rfl | rfl
    · exact .inl rfl
    · exact .inr rfl
  apply BitVec.eq_of_toNat_eq
  rw [clearIgnoredNibble, if_pos h59, formatXY_toNat, fieldX_toNat, fieldY_toNat, ← hop, fieldOp_toNat,
    BitVec.toNat_ofNat, BitVec.toNat_ofNat]
  have := w.isLt
  omega

/-- What a word and the instruction it decodes to have to do with each other. -/
structure DecodedFrom (w : Word) (i : Instr) : Prop where
  known : isUnknownWord w = false
  encodes : encode i = clearIgnoredNibble w
  matchesRow : w &&& i.row.mask = i.row.pattern

/-- A word decodes to an instruction of which it is a word, or to Unknown, which carries it. -/
def DecodesProperly (w : Word) (v : Variant) : Prop :=
  (v = .unknown w ∧ isUnknownWord w = true) ∨ ∃ i, v = .instr i ∧ DecodedFrom w i

/-- Outside families 5 and 9 a word that is known and is the instruction's word is all there is to show. -/
theorem decodesProperly_of_encode {w : Word} {i : Instr} {op : Nat} (h : (fieldOp w).toNat = op)
    (hop : op ∉ [0x5, 0x9]) (known : isUnknownWord w = false) (hw : encode i = w) :
    DecodesProperly w (.instr i) := by
  simp only [List.mem_cons, List.not_mem_nil, or_false, not_or] at hop
  obtain ⟨h5, h9⟩ := hop
  refine .inr ⟨i, rfl, known, ?_, hw ▸ encode_matches_row i⟩
  rw [hw, clearIgnoredNibble_of_ne (h ▸ h5) (h ▸ h9)]

theorem decodesProperly_of_full_family {w : Word} {i : Instr} {op : Nat} (h : (fieldOp w).toNat = op)
    (hop : op ∉ [0x0, 0x5, 0x8, 0x9, 0xE, 0xF]) (hw : encode i = w) :
    DecodesProperly w (.instr i) := by
  simp only [List.mem_cons, List.not_mem_nil, or_false, not_or] at hop
  exact decodesProperly_of_encode h (by simp [hop]) (isUnknownWord_of_full_family h (by simp [hop])) hw

/-- In families 5 and 9 the low nibble is ignored, and the row's mask does not see it (R61). -/
theorem decodesProperly_of_ignored_nibble {w : Word} {i : Instr} {op : BitVec 4} (hop : (fieldOp w).toNat = op.toNat)
    (h : op = 0x5#4 ∨ op = 0x9#4) (hi : encode i = formatXY op (fieldX w) (fieldY w) 0x0#4)
    (hrow : i.row = ⟨0xF000#16, formatXY op 0x0#4 0x0#4 0x0#4⟩) : DecodesProperly w (.instr i) := by
  refine .inr ⟨i, rfl, ?known, hi.trans (formatXY_eq_clearIgnoredNibble hop h), ?row⟩
  case known =>
    refine isUnknownWord_of_full_family hop ?_
    rcases h with rfl | rfl <;> decide
  case row =>
    rw [hrow, ← Laws.TableRow.formatXY_mask_op op (fieldX w) (fieldY w) (fieldN w), formatXY_of_fields hop rfl]

theorem decodeFamily0_cases {w : Word} (h : (fieldOp w).toNat = 0x0) : DecodesProperly w (decodeFamily0 w) := by
  have hu := isUnknownWord_family0 h
  unfold decodeFamily0
  split
  · next e => exact decodesProperly_of_encode h (by decide) (by rw [hu, e]; rfl) e.symm
  · split
    · next e => exact decodesProperly_of_encode h (by decide) (by rw [hu, e]; rfl) e.symm
    · next h0 h1 =>
      refine .inl ⟨rfl, ?_⟩
      have e0 : w.toNat ≠ 0x00E0 := fun e => h0 (BitVec.eq_of_toNat_eq e)
      have e1 : w.toNat ≠ 0x00EE := fun e => h1 (BitVec.eq_of_toNat_eq e)
      simp [hu, e0, e1]

theorem decodeFamily8_cases {w : Word} (h : (fieldOp w).toNat = 0x8) : DecodesProperly w (decodeFamily8 w) := by
  have hu := isUnknownWord_family8 h
  have known {i : Instr} {n : Nibble} (hn : (fieldN w).toNat = n.toNat)
      (hl : [0x8, 0x9, 0xA, 0xB, 0xC, 0xD, 0xF].contains n.toNat = false)
      (hi : encode i = formatXY 0x8#4 (fieldX w) (fieldY w) n) : DecodesProperly w (.instr i) :=
    decodesProperly_of_encode h (by decide) (by rw [hu, hn, hl]) (hi.trans (formatXY_of_fields h hn))
  unfold decodeFamily8
  split
  case h_1 hn => exact known (n := 0x0#4) hn rfl rfl
  case h_2 hn => exact known (n := 0x1#4) hn rfl rfl
  case h_3 hn => exact known (n := 0x2#4) hn rfl rfl
  case h_4 hn => exact known (n := 0x3#4) hn rfl rfl
  case h_5 hn => exact known (n := 0x4#4) hn rfl rfl
  case h_6 hn => exact known (n := 0x5#4) hn rfl rfl
  case h_7 hn => exact known (n := 0x6#4) hn rfl rfl
  case h_8 hn => exact known (n := 0x7#4) hn rfl rfl
  case h_9 hn => exact known (n := 0xE#4) hn rfl rfl
  case h_10 =>
    refine .inl ⟨rfl, ?_⟩
    have := (fieldN w).isLt
    simp only [imp_false] at *
    simp only [hu, List.contains_eq_mem, List.mem_cons, List.not_mem_nil, decide_eq_true_eq]
    omega

theorem decodeFamilyE_cases {w : Word} (h : (fieldOp w).toNat = 0xE) : DecodesProperly w (decodeFamilyE w) := by
  have hu := isUnknownWord_familyE h
  have known {i : Instr} {kk : Byte} (hkk : (fieldKk w).toNat = kk.toNat)
      (hl : [0x9E, 0xA1].contains kk.toNat = true)
      (hi : encode i = formatXK 0xE#4 (fieldX w) kk) : DecodesProperly w (.instr i) :=
    decodesProperly_of_encode h (by decide) (by rw [hu, hkk, hl]; rfl) (hi.trans (formatXK_of_fields h hkk))
  unfold decodeFamilyE
  split
  case h_1 hkk => exact known (kk := 0x9E#8) hkk rfl rfl
  case h_2 hkk => exact known (kk := 0xA1#8) hkk rfl rfl
  case h_3 =>
    refine .inl ⟨rfl, ?_⟩
    simp_all

theorem decodeFamilyF_cases {w : Word} (h : (fieldOp w).toNat = 0xF) : DecodesProperly w (decodeFamilyF w) := by
  have hu := isUnknownWord_familyF h
  have known {i : Instr} {kk : Byte} (hkk : (fieldKk w).toNat = kk.toNat)
      (hl : [0x07, 0x0A, 0x15, 0x18, 0x1E, 0x29, 0x33, 0x55, 0x65].contains kk.toNat = true)
      (hi : encode i = formatXK 0xF#4 (fieldX w) kk) : DecodesProperly w (.instr i) :=
    decodesProperly_of_encode h (by decide) (by rw [hu, hkk, hl]; rfl) (hi.trans (formatXK_of_fields h hkk))
  unfold decodeFamilyF
  split
  case h_1 hkk => exact known (kk := 0x07#8) hkk rfl rfl
  case h_2 hkk => exact known (kk := 0x0A#8) hkk rfl rfl
  case h_3 hkk => exact known (kk := 0x15#8) hkk rfl rfl
  case h_4 hkk => exact known (kk := 0x18#8) hkk rfl rfl
  case h_5 hkk => exact known (kk := 0x1E#8) hkk rfl rfl
  case h_6 hkk => exact known (kk := 0x29#8) hkk rfl rfl
  case h_7 hkk => exact known (kk := 0x33#8) hkk rfl rfl
  case h_8 hkk => exact known (kk := 0x55#8) hkk rfl rfl
  case h_9 hkk => exact known (kk := 0x65#8) hkk rfl rfl
  case h_10 =>
    refine .inl ⟨rfl, ?_⟩
    simp_all

/-- What decoding a word gives, family by family (R56). -/
theorem decode_cases (w : Word) : DecodesProperly w (decode w) := by
  unfold decode
  split
  case h_1 h => exact decodeFamily0_cases h
  case h_2 h => exact decodesProperly_of_full_family h (by decide) (formatA_of_fields (op := 0x1#4) h)
  case h_3 h => exact decodesProperly_of_full_family h (by decide) (formatA_of_fields (op := 0x2#4) h)
  case h_4 h => exact decodesProperly_of_full_family h (by decide) (formatXK_of_fields (op := 0x3#4) h rfl)
  case h_5 h => exact decodesProperly_of_full_family h (by decide) (formatXK_of_fields (op := 0x4#4) h rfl)
  case h_6 h => exact decodesProperly_of_ignored_nibble (op := 0x5#4) h (.inl rfl) rfl rfl
  case h_7 h => exact decodesProperly_of_full_family h (by decide) (formatXK_of_fields (op := 0x6#4) h rfl)
  case h_8 h => exact decodesProperly_of_full_family h (by decide) (formatXK_of_fields (op := 0x7#4) h rfl)
  case h_9 h => exact decodeFamily8_cases h
  case h_10 h => exact decodesProperly_of_ignored_nibble (op := 0x9#4) h (.inr rfl) rfl rfl
  case h_11 h => exact decodesProperly_of_full_family h (by decide) (formatA_of_fields (op := 0xA#4) h)
  case h_12 h => exact decodesProperly_of_full_family h (by decide) (formatA_of_fields (op := 0xB#4) h)
  case h_13 h => exact decodesProperly_of_full_family h (by decide) (formatXK_of_fields (op := 0xC#4) h rfl)
  case h_14 h => exact decodesProperly_of_full_family h (by decide) (formatXY_of_fields (op := 0xD#4) h rfl)
  case h_15 h => exact decodeFamilyE_cases h
  case h_16 =>
    refine decodeFamilyF_cases ?_
    have := (fieldOp w).isLt
    simp only [imp_false] at *
    omega

theorem decode_of_isUnknownWord {w : Word} (h : isUnknownWord w = true) : decode w = .unknown w := by
  obtain ⟨hd, -⟩ | ⟨i, -, hi⟩ := decode_cases w
  · exact hd
  · rw [hi.known] at h
    cases h

theorem decode_eq_unknown {w w' : Word} (h : decode w = .unknown w') : w' = w ∧ isUnknownWord w = true := by
  obtain ⟨hd, hu⟩ | ⟨i, hd, -⟩ := decode_cases w
  · exact ⟨Variant.unknown.inj (h.symm.trans hd), hu⟩
  · cases h.symm.trans hd

theorem decode_eq_instr {w : Word} {i : Instr} (h : decode w = .instr i) : DecodedFrom w i := by
  obtain ⟨hd, -⟩ | ⟨j, hd, hj⟩ := decode_cases w
  · cases h.symm.trans hd
  · rw [Variant.instr.inj (h.symm.trans hd)]
    exact hj

/-- Settles O1: an instruction by its encoder's fields, an Unknown word by the list of R62. -/
theorem decodeOfEncode : Obligations.DecodeOfEncode := by
  intro v hv
  cases v with
  | instr i => exact decode_encode i
  | unknown w => exact decode_of_isUnknownWord hv

/-- Settles O2: the two outcomes of `decode_cases`; no Unknown word is in family 5 or 9. -/
theorem encodeOfDecode : Obligations.EncodeOfDecode := by
  intro w
  show (decode w).encode = clearIgnoredNibble w
  obtain ⟨hd, hu⟩ | ⟨i, hd, hi⟩ := decode_cases w
  · have not_full (op : Nat) (hop : op ∉ [0x0, 0x8, 0xE, 0xF]) : (fieldOp w).toNat ≠ op := fun h => by
      rw [isUnknownWord_of_full_family h hop] at hu
      cases hu
    rw [hd, clearIgnoredNibble_of_ne (not_full 5 (by decide)) (not_full 9 (by decide))]
    rfl
  · rw [hd]
    exact hi.encodes

/-- Settles O3: both directions are outcomes of `decode_cases`. -/
theorem unknownWords : Obligations.UnknownWords :=
  fun _ => ⟨⟨fun h => (decode_eq_unknown h).2, decode_of_isUnknownWord⟩, fun _ h => (decode_eq_unknown h).1⟩

/-! ### The opcode table -/

/-- The rows of spec/opcode_table.json, one for each instruction of R53. -/
def opcodeRows : List TableRow :=
  [Instr.cls.row, Instr.ret.row, (Instr.jpAddr 0).row, (Instr.callAddr 0).row, (Instr.seVxByte 0 0).row,
    (Instr.sneVxByte 0 0).row, (Instr.seVxVy 0 0).row, (Instr.ldVxByte 0 0).row, (Instr.addVxByte 0 0).row,
    (Instr.ldVxVy 0 0).row, (Instr.orVxVy 0 0).row, (Instr.andVxVy 0 0).row, (Instr.xorVxVy 0 0).row,
    (Instr.addVxVy 0 0).row, (Instr.subVxVy 0 0).row, (Instr.shrVx 0 0).row, (Instr.subnVxVy 0 0).row,
    (Instr.shlVx 0 0).row, (Instr.sneVxVy 0 0).row, (Instr.ldIAddr 0).row, (Instr.jpV0Addr 0).row,
    (Instr.rndVxByte 0 0).row, (Instr.drwVxVyN 0 0 0).row, (Instr.skpVx 0).row, (Instr.sknpVx 0).row,
    (Instr.ldVxDt 0).row, (Instr.ldVxK 0).row, (Instr.ldDtVx 0).row, (Instr.ldStVx 0).row, (Instr.addIVx 0).row,
    (Instr.ldFVx 0).row, (Instr.ldBVx 0).row, (Instr.ldMemVx 0).row, (Instr.ldVxMem 0).row]

/-- The row does not depend on the operands. -/
theorem row_mem_opcodeRows (i : Instr) : i.row ∈ opcodeRows := by
  cases i <;> simp only [opcodeRows, Instr.row, List.mem_cons, true_or, or_true]

/-- Any two rows of the table disagree on a bit that both masks keep, or are the same row. -/
theorem opcodeRows_disagree :
    ∀ r ∈ opcodeRows, ∀ q ∈ opcodeRows, r.pattern &&& q.mask = q.pattern &&& r.mask → r = q := by
  decide +kernel

theorem row_unique {w : Word} {i j : Instr} (hi : w &&& i.row.mask = i.row.pattern)
    (hj : w &&& j.row.mask = j.row.pattern) : i.row = j.row := by
  refine opcodeRows_disagree _ (row_mem_opcodeRows i) _ (row_mem_opcodeRows j) ?_
  rw [← hi, ← hj, BitVec.and_assoc, BitVec.and_assoc, BitVec.and_comm i.row.mask]

/-! The fields that a row's mask keeps are the pattern's. -/

theorem fieldOp_of_mask {w m p : Word} {op : Nat} (h : w &&& m = p) (hm : fieldOp m = BitVec.allOnes 4)
    (hp : (fieldOp p).toNat = op) : (fieldOp w).toNat = op := by
  rw [← hp, ← h, fieldOp, fieldOp, BitVec.extractLsb'_and, ← fieldOp, ← fieldOp, hm, BitVec.and_allOnes]

theorem fieldN_of_mask {w m p : Word} {n : Nat} (h : w &&& m = p) (hm : fieldN m = BitVec.allOnes 4)
    (hp : (fieldN p).toNat = n) : (fieldN w).toNat = n := by
  rw [← hp, ← h, fieldN, fieldN, BitVec.extractLsb'_and, ← fieldN, ← fieldN, hm, BitVec.and_allOnes]

theorem fieldKk_of_mask {w m p : Word} {kk : Nat} (h : w &&& m = p) (hm : fieldKk m = BitVec.allOnes 8)
    (hp : (fieldKk p).toNat = kk) : (fieldKk w).toNat = kk := by
  rw [← hp, ← h, fieldKk, fieldKk, BitVec.extractLsb'_and, ← fieldKk, ← fieldKk, hm, BitVec.and_allOnes]

/-- A word that matches a row of the table is none of the Unknown words of R62. -/
theorem isUnknownWord_of_row {w : Word} (i : Instr) (h : w &&& i.row.mask = i.row.pattern) :
    isUnknownWord w = false := by
  cases i with
  | cls | ret =>
    have hw : w &&& BitVec.allOnes 16 = _ := h
    rw [BitVec.and_allOnes] at hw
    rw [hw]
    decide
  | jpAddr | callAddr | seVxByte | sneVxByte | seVxVy | ldVxByte | addVxByte | sneVxVy | ldIAddr | jpV0Addr | rndVxByte
  | drwVxVyN =>
    simp only [Instr.row] at h
    exact isUnknownWord_of_full_family (fieldOp_of_mask h rfl rfl) (by decide)
  | ldVxVy | orVxVy | andVxVy | xorVxVy | addVxVy | subVxVy | shrVx | subnVxVy | shlVx =>
    simp only [Instr.row] at h
    rw [isUnknownWord_family8 (fieldOp_of_mask h rfl rfl), fieldN_of_mask h rfl rfl]
    decide
  | skpVx | sknpVx =>
    simp only [Instr.row] at h
    rw [isUnknownWord_familyE (fieldOp_of_mask h rfl rfl), fieldKk_of_mask h rfl rfl]
    decide
  | ldVxDt | ldVxK | ldDtVx | ldStVx | addIVx | ldFVx | ldBVx | ldMemVx | ldVxMem =>
    simp only [Instr.row] at h
    rw [isUnknownWord_familyF (fieldOp_of_mask h rfl rfl), fieldKk_of_mask h rfl rfl]
    decide

/-- Settles O4: decoding follows the rows, a word of some row is known, and the rows are pairwise disjoint. -/
theorem decodeFollowsTable : Obligations.DecodeFollowsTable := by
  intro w
  refine ⟨fun i h => (decode_eq_instr h).matchesRow, ?unknown, fun i j => row_unique⟩
  case unknown =>
    intro hu i h
    rw [isUnknownWord_of_row i h] at hu
    cases hu

/-- Settles O5: nine words, evaluated. -/
theorem specWordsDecode : Obligations.SpecWordsDecode := by
  unfold Obligations.SpecWordsDecode
  decide

end Sys2Proof
end

section
/-! What `exec` can do, once for all 34 instructions: an instruction that answers a next state faults, suspends or completes,
and one that completes keeps its row of the access table (spec/10_state.md rule R33, spec/40_fetch_decode.md rules R71 to R74).
The whole-machine statements and the invariant follow from it. -/

namespace Sys2Proof.Machine

/-! ### What the updates leave unchanged -/

theorem KeepsOutside.refl (f : Footprint) (s : State) : KeepsOutside f s s :=
  ⟨fun _ _ => rfl, fun _ => rfl, fun _ => rfl, fun _ => rfl, fun _ => ⟨rfl, rfl⟩, fun _ _ => rfl, fun _ _ _ => rfl,
    fun _ => rfl⟩

/-- PC stands outside every footprint. -/
theorem KeepsOutside.withPc {f : Footprint} {s t : State} (h : KeepsOutside f s t) (a : Word) :
    KeepsOutside f s (t.withPc a) :=
  ⟨h.regs, h.i, h.dt, h.st, h.stack, h.bytes, h.display, h.draws⟩

/-- SEQ stands outside every footprint. -/
theorem KeepsOutside.withSeq {f : Footprint} {s t : State} (h : KeepsOutside f s t) (q : Seq) :
    KeepsOutside f s (t.withSeq q) :=
  ⟨h.regs, h.i, h.dt, h.st, h.stack, h.bytes, h.display, h.draws⟩

theorem KeepsOutside.withI {f : Footprint} {s t : State} (h : KeepsOutside f s t) (a : Word) (hf : f.i = true) :
    KeepsOutside f s (t.withI a) :=
  { h with i := fun hi => nomatch hf.symm.trans hi }

theorem KeepsOutside.withDt {f : Footprint} {s t : State} (h : KeepsOutside f s t) (a : Byte) (hf : f.dt = true) :
    KeepsOutside f s (t.withDt a) :=
  { h with dt := fun hi => nomatch hf.symm.trans hi }

theorem KeepsOutside.withSt {f : Footprint} {s t : State} (h : KeepsOutside f s t) (a : Byte) (hf : f.st = true) :
    KeepsOutside f s (t.withSt a) :=
  { h with st := fun hi => nomatch hf.symm.trans hi }

theorem KeepsOutside.withSp {f : Footprint} {s t : State} (h : KeepsOutside f s t) (a : Byte) (hf : f.stack = true) :
    KeepsOutside f s (t.withSp a) :=
  { h with stack := fun hi => nomatch hf.symm.trans hi }

theorem KeepsOutside.withStack {f : Footprint} {s t : State} (h : KeepsOutside f s t) (a : Vector Word 16)
    (hf : f.stack = true) : KeepsOutside f s (t.withStack a) :=
  { h with stack := fun hi => nomatch hf.symm.trans hi }

theorem KeepsOutside.withDisplay {f : Footprint} {s t : State} (h : KeepsOutside f s t) (a : Plane)
    (hf : f.display = true) : KeepsOutside f s (t.withDisplay a) :=
  { h with display := fun hi => nomatch hf.symm.trans hi }

theorem KeepsOutside.withHost {f : Footprint} {s t : State} (h : KeepsOutside f s t) (a : HostInputs)
    (hf : f.draws = true) : KeepsOutside f s (t.withHost a) :=
  { h with draws := fun hi => nomatch hf.symm.trans hi }

theorem KeepsOutside.setV {f : Footprint} {s t : State} (h : KeepsOutside f s t) (x : Reg) (b : Byte)
    (hf : f.regs x = true) : KeepsOutside f s (t.setV x b) :=
  { h with
    regs := fun r hr => by
      have hne : r ≠ x := by
        rintro rfl
        cases hf.symm.trans hr
      rw [State.getV_setV_ne _ _ hne, h.regs r hr] }

theorem KeepsOutside.withMem_writeBytes {f : Footprint} {s t : State} (h : KeepsOutside f s t) (a : Nat) (bs : List Byte)
    (hf : f.bytes = blockFrom a bs.length) : KeepsOutside f s (t.withMem (Memory.writeBytes t.mem a bs)) :=
  { h with
    bytes := fun k hk => by
      have hout : ¬ (a ≤ k ∧ k < a + bs.length) := by simpa only [hf, blockFrom, decide_eq_false_iff_not] using hk
      rw [State.readByte_withMem_writeBytes, if_neg hout, h.bytes k hk] }

theorem KeepsOutside.setVFrom {f : Footprint} {s t : State} (h : KeepsOutside f s t) (bs : List Byte)
    (hl : bs.length ≤ 16) (hf : ∀ r : Reg, r.toNat < bs.length → f.regs r = true) :
    KeepsOutside f s (t.setVFrom 0 bs) := by
  rw [State.setVFrom_eq]
  refine { h with regs := fun r hr => ?_ }
  have hout : ¬ (0 ≤ r.toNat ∧ r.toNat < 0 + bs.length) := fun hin =>
    nomatch (hf r (by omega)).symm.trans hr
  rw [← State.setVFrom_eq, State.getV_setVFrom _ _ _ _ (by omega), if_neg hout, h.regs r hr]

/-! ### The ways an instruction ends -/

/-- `u` differs from `s` in data only: PC, SEQ and the stack are as they were. -/
structure SameControl (s u : State) : Prop where
  pc : u.pc = s.pc
  seq : u.seq = s.seq
  sp : u.sp = s.sp
  stack : u.stack = s.stack

theorem SameControl.refl (s : State) : SameControl s s := ⟨rfl, rfl, rfl, rfl⟩

/-- Memory took a block inside the address space, or, with an empty block, nothing. -/
def StoredInside (m m' : Memory) : Prop := ∃ a bs, a + bs.length ≤ 4096 ∧ m' = Memory.writeBytes m a bs

theorem StoredInside.refl (m : Memory) : StoredInside m m := ⟨0, [], by decide, rfl⟩

/-- Where control goes when an instruction completes (R71, R81, R82, R84). The largest target is that of JP V0,addr. -/
inductive ControlMoved (s t : State) : Prop where
  | ahead (hsp : t.sp = s.sp) (hstack : t.stack = s.stack) (hpc : t.pc = s.pc + 2#16 ∨ t.pc = s.pc + 4#16)
  | jumped (a : Nat) (hlow : 0x200 ≤ a) (hhigh : a ≤ 0x10FE) (hsp : t.sp = s.sp) (hstack : t.stack = s.stack)
      (hpc : t.pc = BitVec.ofNat 16 (a - 0x200))
  | called (a : Nat) (hlow : 0x200 ≤ a) (hhigh : a ≤ 0x10FE) (hs : s.sp.toNat < 16) (hsp : t.sp = s.sp + 1#8)
      (hstack : t.stack = s.stack.set s.sp.toNat s.pc hs) (hpc : t.pc = BitVec.ofNat 16 (a - 0x200))
  | returned (d : Fin 16) (hd : s.sp.toNat = d.val + 1) (hsp : t.sp = s.sp - 1#8) (hstack : t.stack = s.stack)
      (hpc : t.pc = s.stack[d.val] + 2#16)

/-- What holds when an instruction completes. -/
structure Completes (i : Instr) (s t : State) : Prop where
  notWait : ∀ x, i ≠ .ldVxK x
  seq : t.seq = s.seq
  keeps : KeepsOutside (footprintOf s i) s t
  stored : StoredInside s.mem t.mem
  moved : ControlMoved s t

/-- The ways an instruction ends when it answers a next state (R72, R73). -/
inductive Ending (i : Instr) (s t : State) : Prop where
  | faults (r : HaltReason) (hr : mayRaise s i r) (ht : t = s.withSeq (.halted r))
  | suspends (x : Reg) (hi : i = .ldVxK x) (ht : t = s.withSeq (.awaitKey x))
  | completes (h : Completes i s t)

/-- An instruction that changes data and skips or not. -/
theorem Ending.of_ahead {i : Instr} {s u t : State} {a : Word} (h : Host.Outcome.next (u.withPc a) = (.next t : Result))
    (ha : a = u.pc + 2#16 ∨ a = u.pc + 4#16) (hu : SameControl s u) (hm : StoredInside s.mem u.mem)
    (hk : KeepsOutside (footprintOf s i) s u) (hi : ∀ x, i ≠ .ldVxK x := by nofun) : Ending i s t := by
  obtain rfl := Host.Outcome.next.inj h
  rw [hu.pc] at ha
  exact .completes ⟨hi, hu.seq, hk.withPc a, hm, .ahead hu.sp hu.stack ha⟩

/-- An instruction that changes registers, I, a timer or the display and completes. -/
theorem Ending.of_done {i : Instr} {s u t : State} (h : done u = .next t) (hk : KeepsOutside (footprintOf s i) s u)
    (hu : SameControl s u) (hm : u.mem = s.mem := by rfl) (hi : ∀ x, i ≠ .ldVxK x := by nofun) : Ending i s t :=
  .of_ahead h (.inl rfl) hu (hm ▸ .refl s.mem) hk hi

/-- An instruction that stores a block and completes, or misses an address of the block (R36). -/
theorem Ending.of_memWrite {i : Instr} {s t : State} {bs : List Byte}
    (h : s.orHalt (s.memWrite s.i.toNat bs) done = .next t) (hbs : bs.length ≠ 0)
    (hf : footprintOf s i = { bytes := blockFrom s.i.toNat bs.length })
    (hr : ∀ j, j < bs.length → 4096 ≤ s.i.toNat + j → mayRaise s i (.outOfBounds (s.i.toNat + j)))
    (hi : ∀ x, i ≠ .ldVxK x := by nofun) : Ending i s t := by
  obtain ⟨hfit, h⟩ | ⟨j, hj, hout, rfl⟩ := State.memWrite_next h
  · refine .of_ahead h (.inl rfl) ⟨rfl, rfl, rfl, rfl⟩ ⟨_, bs, hfit.resolve_left hbs, rfl⟩ ?_ hi
    exact (KeepsOutside.refl _ s).withMem_writeBytes _ _ (by rw [hf])
  · exact .faults _ (hr j hj hout) rfl

/-- A jump, or a target below LOAD_BASE (R81). -/
theorem Ending.of_rebase {i : Instr} {s t : State} {a : Nat} (h : s.orHalt (rebase a) (fun w => jump w s) = .next t)
    (ha : a ≤ 0x10FE) (hr : a < 0x200 → mayRaise s i (.outOfBounds a)) (hi : ∀ x, i ≠ .ldVxK x := by nofun) :
    Ending i s t := by
  obtain ⟨hlow, rfl⟩ | ⟨hlow, rfl⟩ := rebase_next h
  · refine .completes ⟨hi, State.withPc_seq .., (KeepsOutside.refl _ s).withPc _, ?_,
      .jumped a hlow ha (State.withPc_sp ..) (State.withPc_stack ..) (State.withPc_pc ..)⟩
    rw [State.withPc_mem]
    exact .refl s.mem
  · exact .faults _ (hr hlow) rfl

/-- A key test under the default policy: a draw and a skip or not, or a key index above 15 (R91 to R93). -/
theorem Ending.of_keyTest {i : Instr} {s t : State} {wanted : Bool} {x : Reg} (h : keyTest .fault wanted x s = .next t)
    (hf : footprintOf s i = { draws := true })
    (hr : 15 < (s.getV x).toNat → mayRaise s i (.outOfBounds (s.getV x).toNat))
    (hi : ∀ x, i ≠ .ldVxK x := by nofun) : Ending i s t := by
  obtain ⟨-, rfl⟩ | ⟨hx, rfl⟩ := keyTest_next h
  · refine .of_ahead rfl ?_ ⟨rfl, rfl, rfl, rfl⟩ (.refl s.mem)
      ((KeepsOutside.refl _ s).withHost _ (by rw [hf])) hi
    split
    · exact .inr rfl
    · exact .inl rfl
  · exact .faults _ (hr hx) rfl

theorem ending_callAddr {s t : State} {nnn : Addr} (h : execCallAddr nnn s = .next t) : Ending (.callAddr nnn) s t := by
  obtain ⟨hsp, rfl⟩ | ⟨hsp, hlow, rfl⟩ | ⟨hsp, hlow, rfl⟩ := execCallAddr_next h
  · exact .faults _ (.inl ⟨rfl, hsp⟩) rfl
  · exact .faults _ (.inr ⟨rfl, hlow, hsp⟩) rfl
  · have hhigh : nnn.toNat ≤ 0x10FE := by omega
    refine .completes ⟨nofun, State.withPc_seq .., ?keeps, ?stored,
      .called nnn.toNat hlow hhigh hsp (State.withPc_sp ..) (State.withPc_stack ..) (State.withPc_pc ..)⟩
    case keeps => exact (((KeepsOutside.refl _ s).withStack _ rfl).withSp _ rfl).withPc _
    case stored =>
      rw [State.withPc_mem]
      exact .refl s.mem

theorem ending_ret {s t : State} (h : execRet s = .next t) : Ending .ret s t := by
  obtain ⟨hsp, rfl⟩ | ⟨d, hd, rfl⟩ := execRet_next h
  · exact .faults _ ⟨rfl, hsp⟩ rfl
  · refine .completes ⟨nofun, rfl, ?_, .refl _, .returned d hd rfl rfl rfl⟩
    exact ((KeepsOutside.refl _ s).withSp _ rfl).withPc _

theorem ending_drwVxVyN {s t : State} {x y : Reg} {n : Nibble} (h : execDrwVxVyN x y n s = .next t) :
    Ending (.drwVxVyN x y n) s t := by
  obtain ⟨-, h⟩ | ⟨j, hj, hout, rfl⟩ := State.memRead_next h
  · exact .of_done h (((KeepsOutside.refl _ s).withDisplay _ rfl).setV _ _ rfl) ⟨rfl, rfl, rfl, rfl⟩
  · exact .faults _ ⟨j, hj, rfl, hout⟩ rfl

theorem ending_ldVxMem {s t : State} {x : Reg} (h : execLdVxMem x s = .next t) : Ending (.ldVxMem x) s t := by
  have hx := x.isLt
  obtain ⟨-, h⟩ | ⟨j, hj, hout, rfl⟩ := State.memRead_next h
  · refine .of_done h ((KeepsOutside.refl _ s).setVFrom _ (by simp; omega) fun r hr => ?_) ?_ ?_
    · simp only [List.length_map, List.length_range] at hr
      exact decide_eq_true (by omega)
    · rw [State.setVFrom_eq]
      exact ⟨rfl, rfl, rfl, rfl⟩
    · rw [State.setVFrom_eq, State.withV_mem]
  · exact .faults _ ⟨j, Nat.lt_succ_iff.mp hj, rfl, hout⟩ rfl

/-- How each of the 34 instructions ends when it answers a next state. -/
theorem exec_ending {i : Instr} {s t : State} (h : exec i s = .next t) : Ending i s t := by
  have keeps := KeepsOutside.refl (footprintOf s i) s
  cases i with
  | cls => exact .of_done h (keeps.withDisplay _ rfl) ⟨rfl, rfl, rfl, rfl⟩
  | ret => exact ending_ret h
  | jpAddr nnn => exact .of_rebase h (by omega) fun hlow => ⟨rfl, hlow⟩
  | callAddr nnn => exact ending_callAddr h
  | jpV0Addr nnn =>
    refine .of_rebase h ?_ fun hlow => ⟨rfl, hlow⟩
    have := (s.getV Reg.v0).isLt
    simp only [jumpV0Sum]
    omega
  | seVxByte | sneVxByte | seVxVy | sneVxVy =>
    refine .of_ahead h ?_ (.refl s) (.refl s.mem) keeps
    split
    · exact .inr rfl
    · exact .inl rfl
  | ldVxByte x | addVxByte x | ldVxVy x | orVxVy x | andVxVy x | xorVxVy x | ldVxDt x =>
    exact .of_done h (keeps.setV x _ (beq_self_eq_true x)) ⟨rfl, rfl, rfl, rfl⟩
  | addVxVy x | subVxVy x | shrVx x | subnVxVy x | shlVx x =>
    refine .of_done h ((keeps.setV x _ ?_).setV Reg.vF _ ?_) ⟨rfl, rfl, rfl, rfl⟩
    · simp [footprintOf]
    · simp [footprintOf]
  | rndVxByte x =>
    exact .of_done h ((keeps.withHost _ rfl).setV x _ (beq_self_eq_true x)) ⟨rfl, rfl, rfl, rfl⟩
  | ldIAddr | addIVx | ldFVx => exact .of_done h (keeps.withI _ rfl) ⟨rfl, rfl, rfl, rfl⟩
  | ldDtVx => exact .of_done h (keeps.withDt _ rfl) ⟨rfl, rfl, rfl, rfl⟩
  | ldStVx => exact .of_done h (keeps.withSt _ rfl) ⟨rfl, rfl, rfl, rfl⟩
  | ldVxK x => exact .suspends x rfl (Host.Outcome.next.inj h).symm
  | drwVxVyN => exact ending_drwVxVyN h
  | skpVx | sknpVx => exact .of_keyTest h rfl fun hx => ⟨rfl, hx⟩
  | ldBVx x =>
    exact .of_memWrite h (by simp) rfl fun j hj hout => ⟨j, hj, rfl, hout⟩
  | ldMemVx x =>
    refine .of_memWrite h (by simp) (by simp [footprintOf]) fun j hj hout => ⟨j, ?_, rfl, hout⟩
    rw [State.firstRegs_length] at hj
    omega
  | ldVxMem => exact ending_ldVxMem h

end Sys2Proof.Machine
end

section
/-! Proofs of the whole-machine statements (spec/40_fetch_decode.md section 4, spec/10_state.md section 11) and of the
invariant (spec/10_state.md sections 4, 6 and 8): each is read off `exec_ending`, the ways an instruction can end. -/

namespace Sys2Proof.Machine

/-- Settles O23: the three endings of `exec_ending` are the three clauses. -/
theorem sequencerAndFaultTable : Obligations.SequencerAndFaultTable := by
  intro i s t h
  obtain ⟨r, hr, rfl⟩ | ⟨x, hi, rfl⟩ | hc := exec_ending h
  · exact .inr (.inr ⟨r, rfl, hr⟩)
  · exact .inr (.inl ⟨x, hi, rfl⟩)
  · exact .inl ⟨hc.seq, hc.notWait⟩

/-- Settles O24: a completed instruction keeps its footprint, and the other endings change SEQ alone. -/
theorem frameOfEveryInstruction : Obligations.FrameOfEveryInstruction := by
  intro i s t h
  obtain ⟨r, -, rfl⟩ | ⟨x, -, rfl⟩ | hc := exec_ending h
  · exact (KeepsOutside.refl _ s).withSeq _
  · exact (KeepsOutside.refl _ s).withSeq _
  · exact hc.keeps

/-- An instruction step that answers a next state halted at the fetch or at an Unknown word, or ran an instruction. -/
theorem instructionStep_next {s t : State} (h : instructionStep .fault s = .next t) :
    (∃ r, t = s.withSeq (.halted r)) ∨
    (fetchable s.pc ∧ ∃ i, decode (s.wordAt s.pc) = .instr i ∧ exec i s = .next t) := by
  rw [instructionStep_eq] at h
  split at h
  · exact .inl ⟨_, (Host.Outcome.next.inj h).symm⟩
  · next hodd =>
    split at h
    · next hfit =>
      cases hd : decode (s.wordAt s.pc) with
      | instr i =>
        rw [hd] at h
        refine .inr ⟨⟨?_, by omega⟩, i, rfl, h⟩
        simp only [and_true] at hodd
        omega
      | unknown w =>
        rw [hd] at h
        exact .inl ⟨_, (Host.Outcome.next.inj h).symm⟩
    · exact .inl ⟨_, (Host.Outcome.next.inj h).symm⟩

/-- An instruction step that halts the running machine changes SEQ alone (R73). -/
theorem instructionStep_halts {s t : State} {r : HaltReason} (hrun : s.seq = .run)
    (h : instructionStep .fault s = .next t) (ht : t.seq = .halted r) : t = s.withSeq (.halted r) := by
  obtain ⟨r', rfl⟩ | ⟨-, i, -, hi⟩ := instructionStep_next h
  · rw [← ht, State.withSeq_seq]
  · obtain ⟨r', -, rfl⟩ | ⟨x, -, rfl⟩ | hc := exec_ending hi
    · rw [← ht, State.withSeq_seq]
    · cases ht
    · cases (hc.seq.trans hrun).symm.trans ht

/-- Settles O22: the sequencer's turn is an instruction step, on the state with a scripted `pass` taken off. -/
theorem faultsArePrecise : Obligations.FaultsArePrecise := by
  intro s t r hrun h ht
  rw [step_eq] at h
  constructor
  · intro hm
    rw [turn_run_nil _ hrun hm] at h
    exact instructionStep_halts hrun h ht
  · intro ms hm
    rw [turn_run_pass _ hrun hm] at h
    exact instructionStep_halts (s := s.dropMove) hrun h ht

/-! ### The invariant -/

/-- The invariant speaks of memory, SP, PC, the stack and SEQ only. -/
theorem State.Inv.of_same {s t : State} (h : s.Inv) (hc : SameControl s t) (hm : t.mem = s.mem) : t.Inv where
  memWf := hm ▸ h.memWf
  memBounded := hm ▸ h.memBounded
  spBound := hc.sp ▸ h.spBound
  pcBound := hc.pc ▸ h.pcBound
  stackBound k := hc.stack ▸ h.stackBound k
  awaited x hx := by
    have hw : t.wordAt s.pc = s.wordAt s.pc := by simp only [State.wordAt, State.readByte, hm]
    rw [hc.pc, hw]
    exact h.awaited x (hc.seq ▸ hx)

theorem State.Inv.dropMove {s : State} (h : s.Inv) : s.dropMove.Inv := h.of_same ⟨rfl, rfl, rfl, rfl⟩ rfl

/-- SEQ may become anything but a key wait. -/
theorem State.Inv.withSeq {s : State} (h : s.Inv) {q : Seq} (hq : ∀ x, q ≠ .awaitKey x) : (s.withSeq q).Inv :=
  ⟨h.memWf, h.memBounded, h.spBound, h.pcBound, h.stackBound, fun x hx => absurd hx (hq x)⟩

/-- The suspended LD Vx,K is the one at the PC (R27). -/
theorem State.Inv.suspend {s : State} (h : s.Inv) {x : Reg} (hpc : fetchable s.pc)
    (hd : decode (s.wordAt s.pc) = .instr (.ldVxK x)) : (s.withSeq (.awaitKey x)).Inv := by
  refine ⟨h.memWf, h.memBounded, h.spBound, h.pcBound, h.stackBound, fun y hy => ?_⟩
  cases hy
  exact ⟨hpc, hd⟩

theorem target_toNat {a : Nat} (hlow : 0x200 ≤ a) (hhigh : a ≤ 0x10FE) :
    (BitVec.ofNat 16 (a - 0x200)).toNat ≤ 0xEFE := by
  rw [BitVec.toNat_ofNat]
  omega

/-- From a fetchable PC control stays within the bounds of R18, whichever way it goes. -/
theorem ControlMoved.pcBound {s t : State} (h : ControlMoved s t) (hpc : fetchable s.pc) (hs : s.Inv) :
    t.pc.toNat ≤ 0xEFE := by
  obtain ⟨heven, hle⟩ := hpc
  cases h with
  | ahead hsp hstack ht =>
    obtain ht | ht := ht <;> (rw [ht]; bv_omega)
  | jumped a hlow hhigh hsp hstack ht => rw [ht]; exact target_toNat hlow hhigh
  | called a hlow hhigh hs hsp hstack ht => rw [ht]; exact target_toNat hlow hhigh
  | returned d hd hsp hstack ht =>
    obtain ⟨-, hle⟩ := hs.stackBound d
    rw [ht]
    bv_omega

theorem ControlMoved.spBound {s t : State} (h : ControlMoved s t) (hs : s.Inv) : t.sp.toNat ≤ 16 := by
  have := hs.spBound
  cases h with
  | ahead hsp | jumped _ _ _ hsp => rw [hsp]; exact hs.spBound
  | called _ _ _ hlt hsp => rw [hsp]; bv_omega
  | returned d hd hsp => rw [hsp]; bv_omega

/-- What is pushed is the PC of the CALL, which was fetched. -/
theorem ControlMoved.stackBound {s t : State} (h : ControlMoved s t) (hpc : fetchable s.pc) (hs : s.Inv) (k : Fin 16) :
    fetchable t.stack[k.val] := by
  cases h with
  | ahead _ hstack | jumped _ _ _ _ hstack | returned _ _ _ hstack => simpa only [hstack] using hs.stackBound k
  | called _ _ _ hlt _ hstack =>
    simp only [hstack, Vector.getElem_set]
    split
    · exact hpc
    · exact hs.stackBound k

/-- An instruction that completes on the running machine keeps the invariant. -/
theorem Completes.inv {i : Instr} {s t : State} (h : Completes i s t) (hrun : s.seq = .run) (hpc : fetchable s.pc)
    (hs : s.Inv) : t.Inv := by
  obtain ⟨a, bs, hfit, hm⟩ := h.stored
  exact
    { memWf := hm ▸ Memory.wf_writeBytes bs s.mem a hs.memWf
      memBounded := hm ▸ Memory.bounded_writeBytes bs s.mem a hfit hs.memBounded
      spBound := h.moved.spBound hs
      pcBound := h.moved.pcBound hpc hs
      stackBound := h.moved.stackBound hpc hs
      awaited := fun x hx => nomatch (h.seq.trans hrun).symm.trans hx }

theorem instructionStep_inv {s t : State} (h : instructionStep .fault s = .next t) (hrun : s.seq = .run) (hs : s.Inv) :
    t.Inv := by
  obtain ⟨r, rfl⟩ | ⟨hpc, i, hd, hi⟩ := instructionStep_next h
  · exact hs.withSeq nofun
  · obtain ⟨r, -, rfl⟩ | ⟨x, rfl, rfl⟩ | hc := exec_ending hi
    · exact hs.withSeq nofun
    · exact hs.suspend hpc hd
    · exact hc.inv hrun hpc hs

theorem tickStep_inv {s t : State} (h : tickStep s = .next t) (hs : s.Inv) : t.Inv := by
  obtain rfl := Host.Outcome.next.inj h
  exact hs.of_same ⟨rfl, rfl, rfl, rfl⟩ rfl

/-- A key report resumes two bytes after the LD Vx,K that waited for it (R123). -/
theorem deliverStep_inv {s t : State} {x : Reg} {k : Key} (h : deliverStep x k s = .next t) (hx : s.seq = .awaitKey x)
    (hs : s.Inv) : t.Inv := by
  obtain rfl := Host.Outcome.next.inj h
  obtain ⟨⟨-, hle⟩, -⟩ := hs.awaited x hx
  refine ⟨hs.memWf, hs.memBounded, hs.spBound, ?pc, hs.stackBound, nofun⟩
  case pc =>
    rw [State.withSeq_pc, State.withPc_pc]
    bv_omega

/-- Settles O21: each kind of step that `turn_next` lists keeps the invariant. -/
theorem invKeptByEveryStep : Obligations.InvKeptByEveryStep := by
  intro s t hs h
  obtain ⟨hrun, -, h⟩ | ⟨-, -, h⟩ | ⟨-, -, rfl⟩ | ⟨x, -, -, rfl⟩ | ⟨x, k, ms, hx, -, h⟩ := turn_next h
  · exact instructionStep_inv h hrun hs.dropMove
  · exact tickStep_inv h hs.dropMove
  · exact hs.dropMove.withSeq nofun
  · exact hs.dropMove
  · exact deliverStep_inv h hx hs.dropMove

end Sys2Proof.Machine
end

section
/-! Proofs of the statements of spec/70_reset_and_hazards.md section 1: reset and load (R31, R150 to R152). -/

namespace Sys2Proof.Machine

theorem font_length : font.length = 80 := rfl

theorem initialByte_outside {a : Nat} (h : a < 0x1B0 ∨ 0x200 ≤ a) : initialByte a = 0#8 := by
  rw [initialByte, if_neg (by simp only [font_length, fontBase]; omega)]

theorem initialByte_font {k : Nat} (h : k < 80) : initialByte (0x1B0 + k) = font.getD k 0#8 := by
  rw [initialByte, if_pos (by simp only [font_length, fontBase]; omega), Nat.add_sub_cancel_left]

theorem State.reset_pixel (px : Fin 64) (py : Fin 32) : State.reset.pixel px py = false := Plane.clear_get px py

theorem State.reset_stack (k : Fin 16) : State.reset.stack[k.val] = 0#16 := Vector.getElem_replicate _

/-- Settles O17: field by field; the bytes of memory are those of `initialByte`. -/
theorem resetState : Obligations.ResetState :=
  ⟨State.reset_pc, State.reset_seq, State.reset_getV, State.reset_i, State.reset_dt, State.reset_st, State.reset_sp,
    State.reset_stack, State.reset_pixel, fun _ => initialByte_outside, fun _ => initialByte_font⟩

/-- Settles O19: empty memory, SP and PC 0, every stack entry 0. -/
theorem invAtReset : Obligations.InvAtReset where
  memWf := rfl
  memBounded := rfl
  spBound := by decide
  pcBound := by decide
  stackBound k := by
    rw [State.reset_stack, fetchable]
    decide
  awaited := nofun

/-- Memory when a program has been loaded: the program, then the glyph table (R151). -/
def loadedMemory (bytes : List Byte) : Memory :=
  Memory.writeBytes (Memory.writeBytes [] loadBase bytes) fontBase font

theorem load_refused {bytes : List Byte} (h : bytes.length = 0 ∨ 3584 < bytes.length) :
    load bytes = .refused (.loadError bytes.length) := if_pos h

theorem load_next {bytes : List Byte} (h : ¬ (bytes.length = 0 ∨ 3584 < bytes.length)) :
    load bytes = .next (State.reset.withMem (loadedMemory bytes)) := if_neg h

/-- The glyph table, stored last, does not reach the program: it ends below LOAD_BASE. -/
theorem readByte_loaded (bytes : List Byte) (a : Nat) :
    (State.reset.withMem (loadedMemory bytes)).readByte a =
      if 0x200 ≤ a ∧ a < 0x200 + bytes.length then bytes.getD (a - 0x200) 0 else initialByte a := by
  rw [State.readByte, State.withMem_mem, loadedMemory, Memory.read_writeBytes, Memory.read_writeBytes, font_length]
  by_cases hf : 0x1B0 ≤ a ∧ a < 0x200
  · obtain ⟨k, rfl⟩ : ∃ k, a = 0x1B0 + k := ⟨a - 0x1B0, by omega⟩
    rw [if_pos hf, if_neg (by omega), initialByte_font (by omega), Nat.add_sub_cancel_left]
    rfl
  · rw [if_neg hf]
    rfl

/-- Settles O18: the two outcomes of load, and the bytes by `readByte_loaded`. -/
theorem loadPlacesProgram : Obligations.LoadPlacesProgram := by
  intro bytes
  refine ⟨load_refused, fun hpos hmax => ⟨_, load_next (by omega), ?program, ?glyphs, ?zeros, ?rest⟩⟩
  case program =>
    intro k hk
    rw [readByte_loaded, if_pos (by omega), Nat.add_sub_cancel_left]
    rfl
  case glyphs =>
    intro k hk
    rw [readByte_loaded, if_neg (by omega), initialByte_font hk]
  case zeros =>
    intro a ha
    rw [readByte_loaded, if_neg (by omega), initialByte_outside (by omega)]
  case rest => rw [State.withMem_mem]

theorem loadedMemory_wf (bytes : List Byte) : Memory.wf (loadedMemory bytes) = true :=
  Memory.wf_writeBytes font _ _ (Memory.wf_writeBytes bytes _ _ rfl)

theorem loadedMemory_bounded {bytes : List Byte} (h : bytes.length ≤ 3584) :
    Memory.bounded (loadedMemory bytes) = true := by
  refine Memory.bounded_writeBytes font _ _ ?font (Memory.bounded_writeBytes bytes _ _ ?program rfl)
  case font => decide
  case program =>
    simp only [loadBase, Config.memSize]
    omega

/-- Settles O20: two block stores inside the address space keep the invariant of the reset state. -/
theorem invAfterLoad : Obligations.InvAfterLoad := by
  intro bytes s h
  by_cases hlen : bytes.length = 0 ∨ 3584 < bytes.length
  · cases (load_refused hlen).symm.trans h
  · obtain rfl := Host.Outcome.next.inj ((load_next hlen).symm.trans h)
    have hr := invAtReset
    refine ⟨?wf, ?bounded, hr.spBound, hr.pcBound, hr.stackBound, nofun⟩
    case wf =>
      rw [State.withMem_mem]
      exact loadedMemory_wf bytes
    case bounded =>
      rw [State.withMem_mem]
      exact loadedMemory_bounded (by omega)

end Sys2Proof.Machine
end

section
/-! Proofs of the statements about single steps and runs of the host's steps (spec/40_fetch_decode.md sections 1 to 5,
spec/46_timers_keys.md section 2, spec/60_exceptions.md sections 4, 7 and 8), from the equations of Laws/Step.lean. -/

namespace Sys2Proof.Machine

/-! ### The sequencer's turn -/

theorem instructionStep_instr {s : State} {i : Instr} (hpc : fetchable s.pc)
    (hd : decode (s.wordAt s.pc) = .instr i) : instructionStep .fault s = exec i s := by
  rw [instructionStep_fetchable _ hpc, hd, execVariant]

theorem instructionStep_unknown {s : State} {w : Word} (hpc : fetchable s.pc)
    (hd : decode (s.wordAt s.pc) = .unknown w) :
    instructionStep .fault s = .next (s.withSeq (.halted (.unknownOpcode w s.pc))) := by
  rw [instructionStep_fetchable _ hpc, hd, execVariant, execUnknown, raise_eq]

/-- Settles O6: the sequencer's turn is the instruction step, on the state with a scripted `pass` taken off. -/
theorem stepRunsDecodedInstruction : Obligations.StepRunsDecodedInstruction := by
  intro s i hrun hpc hd
  constructor
  · intro hm
    rw [step_eq, turn_run_nil _ hrun hm, instructionStep_instr hpc hd]
  · intro ms hm
    rw [step_eq, turn_run_pass _ hrun hm]
    exact instructionStep_instr (s := s.dropMove) hpc hd

/-- Settles O7: as O6, with the word that Unknown carries. -/
theorem unknownWordHalts : Obligations.UnknownWordHalts := by
  intro s w hrun hpc hd
  refine ⟨(decode_eq_unknown hd).1, fun hm => ?_, fun ms hm => ?_⟩
  · rw [step_eq, turn_run_nil _ hrun hm, instructionStep_unknown hpc hd]
  · rw [step_eq, turn_run_pass _ hrun hm]
    exact instructionStep_unknown (s := s.dropMove) hpc hd

/-- Settles O8: the closed form of the instruction step, with its one bound on the two addresses read as the two checks. -/
theorem fetchChecks : Obligations.FetchChecks := by
  intro p s hrun hm
  refine ⟨?_, step_eq s⟩
  rw [turn_run_nil p hrun hm, instructionStep_eq]
  by_cases hodd : p = .fault ∧ s.pc.toNat % 2 = 1
  · rw [if_pos hodd.symm, if_pos hodd]
  · rw [if_neg fun h => hodd h.symm, if_neg hodd]
    by_cases hfirst : 4096 ≤ 0x200 + s.pc.toNat
    · rw [if_pos hfirst, if_neg (by omega), max_eq_left hfirst]
    · rw [if_neg hfirst]
      by_cases hsecond : 0x200 + s.pc.toNat + 1 = 4096
      · rw [if_pos hsecond, if_neg (by omega), max_eq_right (by omega)]
      · rw [if_neg hsecond, if_pos (by omega)]

/-- Settles O9: the model's own fault is no next state. -/
theorem haltedIsTerminal : Obligations.HaltedIsTerminal := by
  intro s r h
  have hstep : step s = .fault (.halted r) := by rw [step_eq, turn_halted _ h]
  exact ⟨hstep, fun t ht => nomatch hstep.symm.trans ht⟩

/-! ### The host's steps -/

theorem tickTimer_toNat (b : Byte) : (tickTimer b).toNat = b.toNat - 1 := by
  unfold tickTimer
  split
  · next h => rw [h]; rfl
  · bv_omega

theorem step_tick {s : State} {ms : List HostMove} (h : s.Live) (hm : s.host.moves = .tick :: ms) :
    step s = .next ((s.dropMove.withDt (tickTimer s.dt)).withSt (tickTimer s.st)) := turn_tick _ h hm

/-- Settles O10; the name `tickStep` alone is the model's own. -/
theorem Steps.tickStep : Obligations.TickStep := fun _ _ h hm =>
  ⟨_, step_tick h hm, tickTimer_toNat _, tickTimer_toNat _, rfl⟩

/-- The state after a key report: V[x] takes the key, PC its +2, and the machine runs on (R123). -/
def State.delivered (s : State) (x : Reg) (k : Key) : State :=
  ((s.dropMove.setV x (k.zeroExtend 8)).withPc (s.pc + 2#16)).withSeq .run

theorem step_key {s : State} {x : Reg} {k : Key} {ms : List HostMove} (h : s.seq = .awaitKey x)
    (hm : s.host.moves = .key k :: ms) : step s = .next (s.delivered x k) := turn_await_key _ h hm

theorem State.delivered_getV_self (s : State) (x : Reg) (k : Key) : ((s.delivered x k).getV x).toNat = k.toNat := by
  rw [State.delivered, State.withSeq_getV, State.withPc_getV, State.getV_setV_self,
    BitVec.toNat_setWidth_of_le (by decide)]

theorem State.delivered_getV_ne (s : State) {x r : Reg} (k : Key) (h : r ≠ x) : (s.delivered x k).getV r = s.getV r := by
  rw [State.delivered, State.withSeq_getV, State.withPc_getV, State.getV_setV_ne _ _ h]
  rfl

theorem State.delivered_moves (s : State) (x : Reg) (k : Key) : (s.delivered x k).host.moves = s.host.moves.tail := rfl

/-- Settles O11: field by field, from the state that a key report answers. -/
theorem keyDelivery : Obligations.KeyDelivery := by
  intro s x k ms h hm
  refine ⟨_, step_key h hm, s.delivered_getV_self x k, fun r hr => s.delivered_getV_ne k hr, ?pc, rfl, ?moves, rfl⟩
  case pc => exact BitVec.toNat_add s.pc 2#16
  case moves => rw [State.delivered_moves, hm, List.tail_cons]

/-- Settles O12; the name `terminateStep` alone is the model's own. -/
theorem Steps.terminateStep : Obligations.TerminateStep := fun _ _ h hm => turn_terminate _ h hm

/-- Settles O13: two cases of the turn. -/
theorem waitStandsStill : Obligations.WaitStandsStill := fun _ _ h =>
  ⟨fun hm => turn_await_nil _ h hm, fun _ hm => turn_await_pass _ h hm⟩

/-- Settles O14: a case of the turn. -/
theorem keyReportOnlyInWait : Obligations.KeyReportOnlyInWait := fun _ _ _ h hm => turn_run_key _ h hm

/-! ### Runs of ticks -/

/-- The state after n ticks, with the moves that are then left (R122). -/
structure AfterTicks (n : Nat) (ms : List HostMove) (s t : State) : Prop where
  dt : t.dt.toNat = s.dt.toNat - n
  st : t.st.toNat = s.st.toNat - n
  rest : t = ((s.withDt t.dt).withSt t.st).withHost { s.host with moves := ms }

theorem AfterTicks.moves {n : Nat} {ms : List HostMove} {s t : State} (h : AfterTicks n ms s t) : t.host.moves = ms := by
  rw [h.rest, State.withHost_host]

theorem AfterTicks.seq {n : Nat} {ms : List HostMove} {s t : State} (h : AfterTicks n ms s t) : t.seq = s.seq := by
  rw [h.rest, State.withHost_seq, State.withSt_seq, State.withDt_seq]

theorem AfterTicks.pc {n : Nat} {ms : List HostMove} {s t : State} (h : AfterTicks n ms s t) : t.pc = s.pc := by
  rw [h.rest, State.withHost_pc, State.withSt_pc, State.withDt_pc]

theorem AfterTicks.getV {n : Nat} {ms : List HostMove} {s t : State} (h : AfterTicks n ms s t) (r : Reg) :
    t.getV r = s.getV r := by
  rw [h.rest, State.withHost_getV, State.withSt_getV, State.withDt_getV]

theorem AfterTicks.zero {ms : List HostMove} {s : State} (hm : s.host.moves = ms) : AfterTicks 0 ms s s :=
  ⟨rfl, rfl, by subst hm; rfl⟩

/-- One tick, then n more. -/
theorem AfterTicks.succ {n : Nat} {ms : List HostMove} {s t : State}
    (h : AfterTicks n ms ((s.dropMove.withDt (tickTimer s.dt)).withSt (tickTimer s.st)) t) : AfterTicks (n + 1) ms s t := by
  obtain ⟨hdt, hst, hrest⟩ := h
  rw [State.withSt_dt, State.withDt_dt, tickTimer_toNat] at hdt
  rw [State.withSt_st, tickTimer_toNat] at hst
  exact ⟨by omega, by omega, hrest⟩

/-- n scripted ticks in a row (R122, R124). -/
theorem run_ticks (n : Nat) {s : State} {ms : List HostMove} (h : s.Live)
    (hm : s.host.moves = List.replicate n .tick ++ ms) : ∃ t : State, Host.Core.run core n s = .next t ∧ AfterTicks n ms s t := by
  induction n generalizing s with
  | zero => exact ⟨s, rfl, .zero hm⟩
  | succ n ih =>
    have hm' : s.dropMove.host.moves = List.replicate n .tick ++ ms := by
      show s.host.moves.tail = _
      rw [hm, List.replicate_succ, List.cons_append, List.tail_cons]
    rw [List.replicate_succ, List.cons_append] at hm
    obtain ⟨t, hrun, ht⟩ := ih (s := (s.dropMove.withDt (tickTimer s.dt)).withSt (tickTimer s.st)) h hm'
    exact ⟨t, (core_run_succ n (step_tick h hm)).trans hrun, ht.succ⟩

/-- Settles O15: by `run_ticks`, an induction over the number of ticks. -/
theorem ticksDecrementTimers : Obligations.TicksDecrementTimers := by
  intro n s ms h hm
  obtain ⟨t, hrun, ht⟩ := run_ticks n h hm
  exact ⟨t, hrun, ht.dt, ht.st, ht.moves, ht.rest⟩

theorem exec_ldVxK (x : Reg) (s : State) : exec (.ldVxK x) s = .next (s.withSeq (.awaitKey x)) := rfl

/-- Settles O55: `suspend` writes SEQ alone. -/
theorem keyWaitSuspends : Obligations.KeyWaitSuspends := fun x s =>
  ⟨_, exec_ldVxK x s, State.withSeq_seq .., State.withSeq_pc .., by rw [State.withSeq_seq]⟩

/-- Settles O16: the suspended state ticks n times, and the last step delivers the key. -/
theorem keyWaitCompletes : Obligations.KeyWaitCompletes := by
  intro n x k s ms hm
  obtain ⟨t, hrun, ht⟩ := run_ticks n (s := s.withSeq (.awaitKey x)) (.inr ⟨x, rfl⟩) hm
  have hseq : t.seq = .awaitKey x := ht.seq
  refine ⟨_, t.delivered x k, exec_ldVxK x s, rfl, rfl, core_run_succ_last n hrun (step_key hseq ht.moves),
    t.delivered_getV_self x k, fun r hr => ?others, ?pc, rfl, ht.dt, ht.st, ?moves⟩
  case others => rw [t.delivered_getV_ne k hr, ht.getV, State.withSeq_getV]
  case pc =>
    show t.pc + 2#16 = s.pc + 2#16
    rw [ht.pc, State.withSeq_pc]
  case moves => rw [State.delivered_moves, ht.moves, List.tail_cons]

end Sys2Proof.Machine
end

section
/-! Proofs of the statements of spec/41_flow.md: JP, JP V0, CALL and nested calls (R81 to R85), and of the parked state of
spec/40_fetch_decode.md section 5 (R77). -/

namespace Sys2Proof.Machine

/-! ### Jumps -/

/-- The PC after a control transfer designates the absolute target (R17, R81). -/
theorem target_toNat_add {a : Nat} (hlow : 0x200 ≤ a) (hhigh : a ≤ 0x10FE) :
    (BitVec.ofNat 16 (a - 0x200)).toNat + 0x200 = a := by
  rw [BitVec.toNat_ofNat]
  omega

theorem jump_rebase {s : State} {a : Nat} (h : 0x200 ≤ a) :
    s.orHalt (rebase a) (fun t => jump t s) = .next (s.withPc (BitVec.ofNat 16 (a - 0x200))) := by
  rw [rebase_ge h, State.orHalt_ok, jump_eq]

theorem jump_rebase_below {s : State} {a : Nat} (h : a < 0x200) :
    s.orHalt (rebase a) (fun t => jump t s) = .next (s.withSeq (.halted (.outOfBounds a))) := by
  rw [rebase_lt h, State.orHalt_error]

/-- A jump to any address that an instruction can name, whole. -/
theorem jump_rebase_next {s : State} {a : Nat} (hlow : 0x200 ≤ a) (hhigh : a ≤ 0x10FE) :
    ∃ t, s.orHalt (rebase a) (fun w => jump w s) = .next t ∧ t.pc.toNat + 0x200 = a ∧ t = s.withPc t.pc := by
  refine ⟨_, jump_rebase hlow, ?_, ?_⟩
  · rw [State.withPc_pc, target_toNat_add hlow hhigh]
  · rw [State.withPc_pc]

theorem exec_jpAddr (nnn : Addr) (s : State) :
    exec (.jpAddr nnn) s = s.orHalt (rebase nnn.toNat) fun t => jump t s := rfl

theorem exec_jpV0Addr (nnn : Addr) (s : State) :
    exec (.jpV0Addr nnn) s = s.orHalt (rebase (nnn.toNat + (s.getV 0#4).toNat)) fun t => jump t s := rfl

/-- Settles O38: a rebased jump to nnn. -/
theorem jumpToAddress : Obligations.JumpToAddress := by
  intro nnn s
  rw [exec_jpAddr]
  exact ⟨fun hlow => jump_rebase_next hlow (by omega), jump_rebase_below⟩

/-- Settles O39: a rebased jump to the full sum, which is at most 0xFFF + 0xFF. -/
theorem jumpToAddressPlusV0 : Obligations.JumpToAddressPlusV0 := by
  intro nnn s
  have := (s.getV 0#4).isLt
  rw [exec_jpV0Addr]
  exact ⟨fun hlow => jump_rebase_next hlow (by omega), jump_rebase_below⟩

/-- Settles O43: the target's PC is even and its word inside memory, so both policies fetch it. -/
theorem jumpReachesAddress : Obligations.JumpReachesAddress := by
  intro nnn s p hlow heven
  refine ⟨_, (exec_jpAddr nnn s).trans (jump_rebase hlow), ?_⟩
  have hpc := target_toNat_add hlow (by omega)
  have hnnn : 0x200 + (BitVec.ofNat 16 (nnn.toNat - 0x200)).toNat = nnn.toNat := by omega
  rw [State.fetch_eq, State.withPc_pc, hnnn, if_neg (by omega), if_pos (by omega), State.withPc_readByte,
    State.withPc_readByte]

/-! ### CALL -/

/-- The state after a CALL: its own PC on the stack, SP one more, the PC at the target (R84). -/
def State.called (s : State) (nnn : Addr) (hs : s.sp.toNat < 16) : State :=
  ((s.withStack (s.stack.set s.sp.toNat s.pc hs)).withSp (s.sp + 1#8)).withPc (BitVec.ofNat 16 (nnn.toNat - 0x200))

theorem State.called_pc (s : State) (nnn : Addr) (hs : s.sp.toNat < 16) :
    (s.called nnn hs).pc = BitVec.ofNat 16 (nnn.toNat - 0x200) := State.withPc_pc ..

theorem State.called_sp (s : State) (nnn : Addr) (hs : s.sp.toNat < 16) :
    (s.called nnn hs).sp.toNat = s.sp.toNat + 1 := by
  rw [State.called, State.withPc_sp, State.withSp_sp]
  bv_omega

theorem State.called_stack (s : State) (nnn : Addr) (hs : s.sp.toNat < 16) (k : Fin 16) :
    (s.called nnn hs).stack[k.val] = if k.val = s.sp.toNat then s.pc else s.stack[k.val] := by
  simp only [State.called, State.withPc_stack, State.withSp_stack, State.withStack_stack, Vector.getElem_set, eq_comm]

theorem exec_callAddr_full {nnn : Addr} {s : State} (h : s.sp.toNat = 16) :
    exec (.callAddr nnn) s = .next (s.withSeq (.halted (.stackOverflow s.pc))) := if_pos h

theorem exec_callAddr {nnn : Addr} {s : State} (h : s.sp.toNat < 16) :
    exec (.callAddr nnn) s = s.orHalt (rebase nnn.toNat) fun t => s.push s.pc fun s' => jump t s' :=
  if_neg (Nat.ne_of_lt h)

theorem exec_callAddr_below {nnn : Addr} {s : State} (h : s.sp.toNat < 16) (hlow : nnn.toNat < 0x200) :
    exec (.callAddr nnn) s = .next (s.withSeq (.halted (.outOfBounds nnn.toNat))) := by
  rw [exec_callAddr h, rebase_lt hlow, State.orHalt_error]

theorem exec_callAddr_next {nnn : Addr} {s : State} (h : s.sp.toNat < 16) (hlow : 0x200 ≤ nnn.toNat) :
    exec (.callAddr nnn) s = .next (s.called nnn h) := by
  rw [exec_callAddr h, rebase_ge hlow, State.orHalt_ok, s.push_lt _ _ h, jump_eq, State.called]

/-- Settles O40: a full stack, a target below LOAD_BASE, and the state `State.called`. -/
theorem callSubroutine : Obligations.CallSubroutine := by
  intro nnn s
  refine ⟨exec_callAddr_full, exec_callAddr_below, fun h hlow =>
    ⟨_, exec_callAddr_next h hlow, ?_, s.called_sp nnn h, s.called_stack nnn h, rfl⟩⟩
  rw [s.called_pc, target_toNat_add hlow (by omega)]

/-! ### Nested calls -/

theorem runInstrs_cons {i : Instr} {is : List Instr} {s t : State} (h : exec i s = .next t) :
    runInstrs (i :: is) s = runInstrs is t := by
  rw [runInstrs, h]

theorem runInstrs_append {is js : List Instr} {s t : State} (h : runInstrs is s = .next t) :
    runInstrs (is ++ js) s = runInstrs js t := by
  induction is generalizing s with
  | nil => rw [List.nil_append, Host.Outcome.next.inj h]
  | cons i is ih =>
    cases hi : exec i s with
    | next s' =>
      rw [runInstrs_cons hi] at h
      rw [List.cons_append, runInstrs_cons hi, ih h]
    | fault r =>
      rw [runInstrs, hi] at h
      cases h
    | refused r =>
      rw [runInstrs, hi] at h
      cases h

/-- From `s`, nested CALLs lead to `t`, and as many RETs back to `u`: the entries that were in use are as they were, and the
PC is two bytes after the first CALL's. -/
structure CallsReturn (targets : List Addr) (s t u : State) : Prop where
  calls : runInstrs (targets.map .callAddr) s = .next t
  depth : t.sp.toNat = s.sp.toNat + targets.length
  returns : runInstrs (List.replicate targets.length .ret) t = .next u
  sp : u.sp = s.sp
  inUse : ∀ k : Fin 16, k.val < s.sp.toNat → u.stack[k.val] = s.stack[k.val]
  pc : targets ≠ [] → u.pc = s.pc + 2#16
  rest : u = (s.withStack u.stack).withPc u.pc

theorem CallsReturn.nil (s : State) : CallsReturn [] s s s :=
  ⟨rfl, rfl, rfl, rfl, fun _ _ => rfl, fun h => absurd rfl h, rfl⟩

/-- The last write of each field stands, and SP is back at its old value. -/
theorem State.withSp_undone (s : State) (a c : Vector Word 16) (b : Byte) (p q r : Word) :
    ((((((s.withStack a).withSp b).withPc p).withStack c).withPc q).withSp s.sp).withPc r = (s.withStack c).withPc r := rfl

/-- One CALL before the nest and one RET after it: the entry that the RET pops is the CALL's own PC. -/
theorem CallsReturn.cons {a : Addr} {targets : List Addr} {s t u : State} (hs : s.sp.toNat < 16) (ha : 0x200 ≤ a.toNat)
    (h : CallsReturn targets (s.called a hs) t u) :
    CallsReturn (a :: targets) s t ((u.withSp s.sp).withPc (s.pc + 2#16)) := by
  have hsp : u.sp = s.sp + 1#8 := h.sp
  have hpos : u.sp.toNat = (⟨s.sp.toNat, hs⟩ : Fin 16).val + 1 := by rw [h.sp, s.called_sp]
  have htop : u.stack[s.sp.toNat] = s.pc := by
    have e := h.inUse ⟨s.sp.toNat, hs⟩ (by rw [s.called_sp]; exact Nat.lt_succ_self _)
    rwa [s.called_stack a hs, if_pos rfl] at e
  have hret : exec .ret u = .next ((u.withSp s.sp).withPc (s.pc + 2#16)) := by
    rw [exec_ret, execRet_pos _ hpos, hsp, BitVec.add_sub_cancel, htop]
  constructor
  case calls => rw [List.map_cons, runInstrs_cons (exec_callAddr_next hs ha), h.calls]
  case depth =>
    rw [h.depth, s.called_sp, List.length_cons]
    omega
  case returns =>
    rw [List.length_cons, List.replicate_succ', runInstrs_append h.returns, runInstrs_cons hret, runInstrs]
  case sp => rw [State.withPc_sp, State.withSp_sp]
  case inUse =>
    intro k hk
    have e := h.inUse k (by rw [s.called_sp]; omega)
    rwa [s.called_stack a hs, if_neg (Nat.ne_of_lt hk)] at e
  case pc =>
    intro _
    rw [State.withPc_pc]
  case rest =>
    rw [State.withPc_stack, State.withSp_stack, State.withPc_pc]
    exact (congrArg (fun v => (v.withSp s.sp).withPc (s.pc + 2#16)) h.rest).trans (State.withSp_undone ..)

theorem calls_return (targets : List Addr) {s : State} (ht : ∀ a ∈ targets, 0x200 ≤ a.toNat)
    (hs : s.sp.toNat + targets.length ≤ 16) : ∃ t u, CallsReturn targets s t u := by
  induction targets generalizing s with
  | nil => exact ⟨s, s, .nil s⟩
  | cons a targets ih =>
    rw [List.length_cons] at hs
    have hlt : s.sp.toNat < 16 := by omega
    obtain ⟨t, u, h⟩ := ih (s := s.called a hlt) (fun b hb => ht b (List.mem_cons_of_mem a hb))
      (by rw [s.called_sp]; omega)
    exact ⟨t, _, h.cons hlt (ht a List.mem_cons_self)⟩

/-- Settles O42: by `calls_return`, an induction over the list of targets. -/
theorem nestedCallsReturn : Obligations.NestedCallsReturn := by
  intro targets s ht hs
  obtain ⟨t, u, h⟩ := calls_return targets ht hs
  exact ⟨t, u, h.calls, h.depth, fun hfull _ => exec_callAddr_full hfull, h.returns, h.sp, h.pc, h.rest⟩

/-! ### The parked state -/

/-- The JP of a parked machine leads to itself (R77). -/
theorem State.Parked.instructionStep {s : State} (h : s.Parked) : instructionStep .fault s = .next s := by
  obtain ⟨-, hpc, nnn, hd, htarget⟩ := h
  rw [instructionStep_instr hpc hd, exec_jpAddr, jump_rebase (by rw [htarget]; exact Nat.le_add_right ..), htarget,
    Nat.add_sub_cancel_left, BitVec.ofNat_toNat, BitVec.setWidth_eq]
  rfl

theorem State.Parked.dropMove {s : State} (h : s.Parked) : s.dropMove.Parked := h

/-- Settles O56: the sequencer's turn takes the JP to itself; a tick changes nothing that `Parked` speaks of. -/
theorem parkedStandsStill : Obligations.ParkedStandsStill := by
  intro s h
  refine ⟨fun hm => ?idle, fun ms hm => ?pass, fun ms hm => ⟨_, step_tick (.inl h.1) hm, h, rfl⟩⟩
  case idle => rw [step_eq, turn_run_nil _ h.1 hm, h.instructionStep]
  case pass => rw [step_eq, turn_run_pass _ h.1 hm, h.dropMove.instructionStep]

end Sys2Proof.Machine
end

section
/-! Proofs of the statements of spec/43_alu.md: every instruction of the section is a completing write of one register
(`done_setV_writes`) or of a result and then the flag (`done_setVAndFlag_writes`). -/

namespace Sys2Proof.Machine

/-! ### One register -/

theorem exec_addVxByte (x : Reg) (kk : Byte) (s : State) :
    exec (.addVxByte x kk) s = done (s.setV x (s.getV x + kk)) := rfl

theorem exec_orVxVy (x y : Reg) (s : State) : exec (.orVxVy x y) s = done (s.setV x (s.getV x ||| s.getV y)) := rfl

theorem exec_andVxVy (x y : Reg) (s : State) : exec (.andVxVy x y) s = done (s.setV x (s.getV x &&& s.getV y)) := rfl

theorem exec_xorVxVy (x y : Reg) (s : State) : exec (.xorVxVy x y) s = done (s.setV x (s.getV x ^^^ s.getV y)) := rfl

/-- Settles O28: a completing write of the sum. -/
theorem addImmediate : Obligations.AddImmediate := by
  intro x kk s
  obtain ⟨t, hnext, hx, hothers, hadv⟩ := done_setV_writes s x (s.getV x + kk)
  exact ⟨t, (exec_addVxByte x kk s).trans hnext, by rw [hx, BitVec.toNat_add], hothers, hadv⟩

/-- Settles O29: three completing writes, whose bits are the library's. -/
theorem bitwiseOperations : Obligations.BitwiseOperations := by
  intro x y s
  refine ⟨?or, ?and, ?xor⟩
  case or =>
    obtain ⟨t, hnext, hx, hothers, hadv⟩ := done_setV_writes s x (s.getV x ||| s.getV y)
    exact ⟨t, (exec_orVxVy x y s).trans hnext, fun k => by rw [hx, BitVec.getLsbD_or], hothers, hadv⟩
  case and =>
    obtain ⟨t, hnext, hx, hothers, hadv⟩ := done_setV_writes s x (s.getV x &&& s.getV y)
    exact ⟨t, (exec_andVxVy x y s).trans hnext, fun k => by rw [hx, BitVec.getLsbD_and], hothers, hadv⟩
  case xor =>
    obtain ⟨t, hnext, hx, hothers, hadv⟩ := done_setV_writes s x (s.getV x ^^^ s.getV y)
    exact ⟨t, (exec_xorVxVy x y s).trans hnext, fun k => by rw [hx, BitVec.getLsbD_xor], hothers, hadv⟩

/-! ### A result and the flag -/

/-- An instruction that writes V[x] and then VF and completes: the flag stands, for x = F too (R95). -/
theorem done_setVAndFlag_writes (s : State) (x : Reg) (b f : Byte) :
    ∃ t, done (s.setVAndFlag x b f) = .next t ∧ (x ≠ Reg.vF → t.getV x = b) ∧ t.getV Reg.vF = f ∧
      (∀ r, r ≠ x → r ≠ Reg.vF → t.getV r = s.getV r) ∧ s.AdvancedTo t := by
  refine ⟨_, done_eq _, ?result, ?flag, ?others, rfl, rfl⟩
  case result =>
    intro hx
    rw [State.withPc_getV, State.getV_setVAndFlag, if_neg hx, if_pos rfl]
  case flag => rw [State.withPc_getV, State.getV_setVAndFlag, if_pos rfl]
  case others =>
    intro r hr hf
    rw [State.withPc_getV, State.getV_setVAndFlag, if_neg hf, if_neg hr]

theorem exec_addVxVy (x y : Reg) (s : State) : exec (.addVxVy x y) s =
    done (s.setVAndFlag x (s.getV x + s.getV y) (carryFlag (s.getV x) (s.getV y))) := rfl

theorem exec_subVxVy (x y : Reg) (s : State) : exec (.subVxVy x y) s =
    done (s.setVAndFlag x (s.getV x - s.getV y) (notBorrowFlag (s.getV x) (s.getV y))) := rfl

theorem exec_subnVxVy (x y : Reg) (s : State) : exec (.subnVxVy x y) s =
    done (s.setVAndFlag x (s.getV y - s.getV x) (notBorrowFlag (s.getV y) (s.getV x))) := rfl

theorem exec_shrVx (x y : Reg) (s : State) : exec (.shrVx x y) s =
    done (s.setVAndFlag x (s.getV x >>> 1) (shiftedOutRight (s.getV x))) := rfl

theorem exec_shlVx (x y : Reg) (s : State) : exec (.shlVx x y) s =
    done (s.setVAndFlag x (s.getV x <<< 1) (shiftedOutLeft (s.getV x))) := rfl

theorem carryFlag_toNat (a b : Byte) : (carryFlag a b).toNat = if 256 ≤ a.toNat + b.toNat then 1 else 0 := by
  simp only [carryFlag, flagByte_toNat, decide_eq_true_eq, Nat.lt_iff_add_one_le]

theorem notBorrowFlag_toNat (a b : Byte) : (notBorrowFlag a b).toNat = if b.toNat ≤ a.toNat then 1 else 0 := by
  simp only [notBorrowFlag, flagByte_toNat, decide_eq_true_eq]

theorem shiftedOutRight_toNat (a : Byte) : (shiftedOutRight a).toNat = a.toNat % 2 := by
  rw [shiftedOutRight, flagByte_toNat, BitVec.getLsbD, Nat.testBit_zero]
  simp only [decide_eq_true_eq]
  split <;> omega

theorem shiftedOutLeft_toNat (a : Byte) : (shiftedOutLeft a).toNat = a.toNat / 128 := by
  have := a.isLt
  rw [shiftedOutLeft, flagByte_toNat, BitVec.getLsbD, Nat.testBit_eq_decide_div_mod_eq]
  simp only [decide_eq_true_eq]
  split <;> omega

theorem sub_toNat (a b : Byte) : (a - b).toNat = (a.toNat + 256 - b.toNat) % 256 := by
  have := b.isLt
  rw [BitVec.toNat_sub]
  omega

/-- Settles O30: a result and the carry. -/
theorem addWithCarry : Obligations.AddWithCarry := by
  intro x y s
  obtain ⟨t, hnext, hx, hf, hothers, hadv⟩ :=
    done_setVAndFlag_writes s x (s.getV x + s.getV y) (carryFlag (s.getV x) (s.getV y))
  refine ⟨encodedAs_encode (.addVxVy x y), t, (exec_addVxVy x y s).trans hnext, fun h => ?_, ?_, hothers, hadv⟩
  · rw [hx h, BitVec.toNat_add]
  · rw [hf, carryFlag_toNat]

/-- Settles O31: a result and the absence of a borrow, twice. -/
theorem subtractWithBorrow : Obligations.SubtractWithBorrow := by
  intro x y s
  refine ⟨encodedAs_encode (.subVxVy x y), encodedAs_encode (.subnVxVy x y), ?sub, ?subn⟩
  case sub =>
    obtain ⟨t, hnext, hx, hf, hothers, hadv⟩ :=
      done_setVAndFlag_writes s x (s.getV x - s.getV y) (notBorrowFlag (s.getV x) (s.getV y))
    refine ⟨t, (exec_subVxVy x y s).trans hnext, fun h => ?_, ?_, hothers, hadv⟩
    · rw [hx h, sub_toNat]
    · rw [hf, notBorrowFlag_toNat]
  case subn =>
    obtain ⟨t, hnext, hx, hf, hothers, hadv⟩ :=
      done_setVAndFlag_writes s x (s.getV y - s.getV x) (notBorrowFlag (s.getV y) (s.getV x))
    refine ⟨t, (exec_subnVxVy x y s).trans hnext, fun h => ?_, ?_, hothers, hadv⟩
    · rw [hx h, sub_toNat]
    · rw [hf, notBorrowFlag_toNat]

/-- Settles O32: a result and the bit shifted out, twice; V[y] is not read. -/
theorem shiftsByOne : Obligations.ShiftsByOne := by
  intro x y s
  refine ⟨encodedAs_encode (.shrVx x y), encodedAs_encode (.shlVx x y), ?shr, ?shl⟩
  case shr =>
    obtain ⟨t, hnext, hx, hf, hothers, hadv⟩ :=
      done_setVAndFlag_writes s x (s.getV x >>> 1) (shiftedOutRight (s.getV x))
    refine ⟨t, (exec_shrVx x y s).trans hnext, fun h => ?_, ?_, hothers, hadv⟩
    · rw [hx h, BitVec.toNat_ushiftRight, Nat.shiftRight_eq_div_pow, pow_one]
    · rw [hf, shiftedOutRight_toNat]
  case shl =>
    obtain ⟨t, hnext, hx, hf, hothers, hadv⟩ :=
      done_setVAndFlag_writes s x (s.getV x <<< 1) (shiftedOutLeft (s.getV x))
    refine ⟨t, (exec_shlVx x y s).trans hnext, fun h => ?_, ?_, hothers, hadv⟩
    · rw [hx h, BitVec.toNat_shiftLeft, Nat.shiftLeft_eq, pow_one, Nat.mul_comm]
    · rw [hf, shiftedOutLeft_toNat]

/-! ### The random draw -/

theorem exec_rndVxByte (x : Reg) (kk : Byte) (s : State) :
    exec (.rndVxByte x kk) s = .next ((s.afterRandomByte.setV x (s.randomByte &&& kk)).withPc (s.pc + 2#16)) := rfl

theorem State.randomByte_scripted {s : State} {r : Byte} {bs : List Byte} (h : s.host.bytes = r :: bs) :
    s.randomByte = r := by
  rw [State.randomByte, h]

theorem State.randomByte_free {s : State} (h : s.host.bytes = []) : s.randomByte = Config.freeByte s.host.draws := by
  rw [State.randomByte, h]

theorem State.afterRandomByte_bytes (s : State) : s.afterRandomByte.host.bytes = s.host.bytes.tail := rfl

/-- Settles O33: a completing write after a draw, scripted or free. -/
theorem randomMasked : Obligations.RandomMasked := by
  intro x kk s
  refine ⟨_, exec_rndVxByte x kk s, ?bits, ?scripted, State.randomByte_free, rfl, rfl, rfl, ?others, rfl, rfl⟩
  case bits =>
    intro k
    rw [State.withPc_getV, State.getV_setV_self, BitVec.getLsbD_and]
  case scripted =>
    intro r bs h
    refine ⟨State.randomByte_scripted h, ?_⟩
    rw [State.withPc_host, State.setV_host, State.afterRandomByte_bytes, h, List.tail_cons]
  case others =>
    intro r hr
    rw [State.withPc_getV, State.getV_setV_ne _ _ hr, State.afterRandomByte_getV]

end Sys2Proof.Machine
end

section
/-! Proofs of the statements of spec/42_skip.md: the skips on two registers (R89, R90) and on a key (R91 to R93). -/

namespace Sys2Proof.Machine

theorem exec_seVxVy (x y : Reg) (s : State) : exec (.seVxVy x y) s = skipIf (s.getV x == s.getV y) s := rfl

theorem exec_sneVxVy (x y : Reg) (s : State) : exec (.sneVxVy x y) s = skipIf (s.getV x != s.getV y) s := rfl

/-- Settles O35: equality and inequality each decide both skips. -/
theorem skipsOnRegisters : Obligations.SkipsOnRegisters := by
  intro x y s
  rw [exec_seVxVy, exec_sneVxVy]
  constructor
  · exact fun h => ⟨skipIf_true (beq_iff_eq.mpr h) s, skipIf_false (bne_eq_false_iff_eq.mpr h) s⟩
  · exact fun h => ⟨skipIf_false (beq_eq_false_iff_ne.mpr h) s, skipIf_true (bne_iff_ne.mpr h) s⟩

theorem exec_skpVx (x : Reg) (s : State) : exec (.skpVx x) s = keyTest .fault true x s := rfl

theorem exec_sknpVx (x : Reg) (s : State) : exec (.sknpVx x) s = keyTest .fault false x s := rfl

/-- A key test with a key code: one query, and a skip when its answer is the wanted one (R92, R93). -/
theorem keyTest_ok {p : Config.KeyRangePolicy} {wanted : Bool} {x : Reg} {s : State} {k : Key}
    (h : keyIndex p (s.getV x) = .ok k) :
    keyTest p wanted x s = .next (s.afterKeyQuery.withPc
      (if s.keyMap.getLsbD k.toNat = wanted then s.pc + 4#16 else s.pc + 2#16)) := by
  rw [keyTest, h, State.orHalt_ok, skipIf_eq, State.afterKeyQuery_pc]
  simp only [State.keyDown, beq_iff_eq]

theorem keyTest_le {p : Config.KeyRangePolicy} {wanted : Bool} {x : Reg} {s : State} (h : (s.getV x).toNat ≤ 15) :
    keyTest p wanted x s = .next (s.afterKeyQuery.withPc
      (if s.keyMap.getLsbD (s.getV x).toNat = wanted then s.pc + 4#16 else s.pc + 2#16)) := by
  have hk : (BitVec.ofNat 4 (s.getV x).toNat).toNat = (s.getV x).toNat := by
    rw [BitVec.toNat_ofNat]
    omega
  rw [keyTest_ok (keyIndex_le p h), hk]

theorem keyTest_gt_fault {wanted : Bool} {x : Reg} {s : State} (h : 15 < (s.getV x).toNat) :
    keyTest .fault wanted x s = .next (s.withSeq (.halted (.outOfBounds (s.getV x).toNat))) := by
  rw [keyTest, keyIndex_gt_fault h, State.orHalt_error]

theorem digit_toNat (v : Byte) : (v.extractLsb' 0 4).toNat = v.toNat % 16 := by
  rw [BitVec.extractLsb'_toNat, Nat.shiftRight_zero]

theorem keyTest_gt_mask {wanted : Bool} {x : Reg} {s : State} (h : 15 < (s.getV x).toNat) :
    keyTest .mask wanted x s = .next (s.afterKeyQuery.withPc
      (if s.keyMap.getLsbD ((s.getV x).toNat % 16) = wanted then s.pc + 4#16 else s.pc + 2#16)) := by
  rw [keyTest_ok (keyIndex_gt_mask h), digit_toNat]

theorem State.keyMap_scripted {s : State} {m : BitVec 16} {ms : List (BitVec 16)} (h : s.host.keys = m :: ms) :
    s.keyMap = m ∧ s.afterKeyQuery.host.keys = ms := by
  have htail : s.afterKeyQuery.host.keys = s.host.keys.tail := rfl
  rw [State.keyMap, htail, h]
  exact ⟨rfl, rfl⟩

theorem State.keyMap_free {s : State} (h : s.host.keys = []) : s.keyMap = Config.freeKeys s.host.draws := by
  rw [State.keyMap, h]

/-- Settles O36: `keyTest_le` for either answer, scripted or free. -/
theorem skipsOnKey : Obligations.SkipsOnKey := by
  intro x s hx
  rw [exec_skpVx, exec_sknpVx, keyTest_le hx, keyTest_le hx]
  refine ⟨fun hdown => ?down, fun hup => ?up, fun m ms => State.keyMap_scripted, State.keyMap_free⟩
  case down => simp [hdown]
  case up => simp [hup]

/-- Settles O37: the two policies of `keyIndex`. -/
theorem keyIndexAboveFifteen : Obligations.KeyIndexAboveFifteen := fun _ _ h =>
  ⟨keyTest_gt_fault h, keyTest_gt_fault h, fun _ => keyTest_gt_fault h, fun _ => keyTest_gt_mask h⟩

end Sys2Proof.Machine
end

section
/-! Proofs of the statements of spec/44_index_memory.md section 1 (R110, R111) and spec/46_timers_keys.md section 1 (R118,
R120, R121). -/

namespace Sys2Proof.Machine

theorem exec_addIVx (x : Reg) (s : State) : exec (.addIVx x) s = done (s.withI (s.i + (s.getV x).zeroExtend 16)) := rfl

theorem exec_ldFVx (x : Reg) (s : State) : exec (.ldFVx x) s = done (s.withI (glyphAddress (s.getV x))) := rfl

theorem glyphAddress_toNat (v : Byte) : (glyphAddress v).toNat = 0x1B0 + 5 * (v.toNat % 16) := by
  rw [glyphAddress, digit, digit_toNat, BitVec.toNat_ofNat]
  simp only [fontBase, glyphBytes]
  omega

/-- Settles O45: two completing writes of I. -/
theorem indexArithmetic : Obligations.IndexArithmetic := by
  intro x s
  constructor
  · obtain ⟨t, hnext, hi, hwhole⟩ := done_withI_writes s (s.i + (s.getV x).zeroExtend 16)
    refine ⟨t, (exec_addIVx x s).trans hnext, ?_, hwhole⟩
    rw [hi, BitVec.toNat_add, BitVec.toNat_setWidth_of_le (by decide)]
  · obtain ⟨t, hnext, hi, hwhole⟩ := done_withI_writes s (glyphAddress (s.getV x))
    exact ⟨t, (exec_ldFVx x s).trans hnext, by rw [hi, glyphAddress_toNat], hwhole⟩

theorem exec_ldVxDt (x : Reg) (s : State) : exec (.ldVxDt x) s = .next ((s.setV x s.dt).withPc (s.pc + 2#16)) := rfl

theorem exec_ldDtVx (x : Reg) (s : State) :
    exec (.ldDtVx x) s = .next ((s.withDt (s.getV x)).withPc (s.pc + 2#16)) := rfl

theorem exec_ldStVx (x : Reg) (s : State) :
    exec (.ldStVx x) s = .next ((s.withSt (s.getV x)).withPc (s.pc + 2#16)) := rfl

/-- Settles O54: three completing writes, of a register and of each timer. -/
theorem timerInstructions : Obligations.TimerInstructions := by
  intro x s
  refine ⟨⟨_, exec_ldVxDt x s, ?read, ?others, rfl⟩, ⟨_, exec_ldDtVx x s, rfl, rfl⟩, ⟨_, exec_ldStVx x s, rfl, rfl⟩⟩
  case read => rw [State.withPc_getV, State.getV_setV_self]
  case others =>
    intro r hr
    rw [State.withPc_getV, State.getV_setV_ne _ _ hr]

end Sys2Proof.Machine
end

section
/-! Proofs of the statements of spec/44_index_memory.md section 2 (R112 to R114) and spec/20_memory.md section 7 (R49): the
block at I, stored or loaded whole or not at all. -/

namespace Sys2Proof.Machine

/-! ### Stores -/

/-- The state after a completed store of a block at I. -/
def State.stored (s : State) (bs : List Byte) : State :=
  (s.withMem (Memory.writeBytes s.mem s.i.toNat bs)).withPc (s.pc + 2#16)

theorem store_next {s : State} {bs : List Byte} (h : s.i.toNat + bs.length ≤ 4096) :
    s.orHalt (s.memWrite s.i.toNat bs) done = .next (s.stored bs) := by
  rw [s.memWrite_ok fun k hk => by omega, State.orHalt_ok, done_eq, State.withMem_pc, State.stored]

theorem store_outOfBounds {s : State} {bs : List Byte} {k : Nat} (hk : k < bs.length) (hout : 4096 ≤ s.i.toNat + k)
    (hlow : ∀ j, j < k → s.i.toNat + j < 4096) :
    s.orHalt (s.memWrite s.i.toNat bs) done = .next (s.withSeq (.halted (.outOfBounds (s.i.toNat + k)))) := by
  rw [s.memWrite_outOfBounds hk hout hlow, State.orHalt_error]

theorem State.stored_rest (s : State) (bs : List Byte) :
    s.stored bs = (s.withMem (s.stored bs).mem).withPc (s.pc + 2#16) := rfl

theorem State.readByte_stored_inside (s : State) {bs : List Byte} {k : Nat} (hk : k < bs.length) :
    (s.stored bs).readByte (s.i.toNat + k) = bs.getD k 0#8 := by
  rw [State.stored, State.withPc_readByte, State.readByte_writeBytes_inside _ hk]

theorem State.readByte_stored_outside (s : State) {bs : List Byte} {a : Nat}
    (ha : a < s.i.toNat ∨ s.i.toNat + bs.length ≤ a) : (s.stored bs).readByte a = s.readByte a := by
  rw [State.stored, State.withPc_readByte, State.readByte_writeBytes_outside _ ha]

theorem exec_ldBVx (x : Reg) (s : State) :
    exec (.ldBVx x) s = s.orHalt (s.memWrite s.i.toNat (bcdDigits (s.getV x))) done := rfl

theorem exec_ldMemVx (x : Reg) (s : State) :
    exec (.ldMemVx x) s = s.orHalt (s.memWrite s.i.toNat (s.firstRegs x)) done := rfl

/-- The decimal digits do not wrap in a byte (R112). -/
theorem bcdDigits_toNat (v : Byte) :
    ((bcdDigits v).getD 0 0#8).toNat = v.toNat / 100 ∧ ((bcdDigits v).getD 1 0#8).toNat = v.toNat / 10 % 10 ∧
      ((bcdDigits v).getD 2 0#8).toNat = v.toNat % 10 := by
  have := v.isLt
  refine ⟨?_, ?_, ?_⟩
  · exact (BitVec.toNat_ofNat ..).trans (Nat.mod_eq_of_lt (by omega))
  · exact (BitVec.toNat_ofNat ..).trans (Nat.mod_eq_of_lt (by omega))
  · exact (BitVec.toNat_ofNat ..).trans (Nat.mod_eq_of_lt (by omega))

/-- Settles O46: a store of the three digits. -/
theorem storeDecimalDigits : Obligations.StoreDecimalDigits := by
  intro x s
  rw [exec_ldBVx]
  have hlen : (bcdDigits (s.getV x)).length = 3 := bcdDigits_length _
  obtain ⟨h0, h1, h2⟩ := bcdDigits_toNat (s.getV x)
  refine ⟨fun hfit => ⟨_, store_next (by omega), ?hundreds, ?tens, ?ones, ?others, s.stored_rest _⟩, fun k hk =>
    store_outOfBounds (by omega)⟩
  case hundreds => rw [← h0, ← s.readByte_stored_inside (by omega), Nat.add_zero]
  case tens => rw [← h1, ← s.readByte_stored_inside (by omega)]
  case ones => rw [← h2, ← s.readByte_stored_inside (by omega)]
  case others => exact fun a ha => s.readByte_stored_outside (by omega)

/-- The byte that LD [I],Vx stores for a register (R113). -/
theorem State.readByte_stored_firstRegs (s : State) {x r : Reg} (h : r.toNat ≤ x.toNat) :
    (s.stored (s.firstRegs x)).readByte (s.i.toNat + r.toNat) = s.getV r := by
  rw [s.readByte_stored_inside (by rw [s.firstRegs_length]; omega)]
  exact (s.firstRegs_getD x h).trans (by rw [BitVec.ofNat_toNat, BitVec.setWidth_eq])

theorem exec_ldMemVx_next {x : Reg} {s : State} (h : s.i.toNat + x.toNat < 4096) :
    exec (.ldMemVx x) s = .next (s.stored (s.firstRegs x)) := by
  rw [exec_ldMemVx, store_next (by rw [s.firstRegs_length]; omega)]

/-- Settles O47: a store of the first x + 1 registers. -/
theorem storeRegisters : Obligations.StoreRegisters := by
  intro x s
  have hlen := s.firstRegs_length x
  refine ⟨fun hfit => ⟨_, exec_ldMemVx_next hfit, fun r => s.readByte_stored_firstRegs, fun a ha =>
    s.readByte_stored_outside (by omega), s.stored_rest _⟩, fun k hk => store_outOfBounds (by omega)⟩

/-! ### Loads -/

/-- The state after a completed load of V0..Vx from the block at I. -/
def State.loaded (s : State) (x : Reg) : State :=
  (s.setVFrom 0 ((List.range (x.toNat + 1)).map fun k => s.readByte (s.i.toNat + k))).withPc (s.pc + 2#16)

theorem State.loaded_rest (s : State) (x : Reg) : s.loaded x = (s.withV (s.loaded x).v).withPc (s.pc + 2#16) :=
  congrArg (State.withPc · (s.pc + 2#16)) (State.setVFrom_eq _ s 0)

theorem State.loaded_i (s : State) (x : Reg) : (s.loaded x).i = s.i := by
  rw [s.loaded_rest, State.withPc_i, State.withV_i]

theorem State.loaded_getV (s : State) (x r : Reg) :
    (s.loaded x).getV r = if r.toNat ≤ x.toNat then s.readByte (s.i.toNat + r.toNat) else s.getV r := by
  have hx := x.isLt
  rw [State.loaded, State.withPc_getV, State.getV_setVFrom _ _ _ _ (by simp; omega)]
  by_cases hr : r.toNat ≤ x.toNat
  · have hin : r.toNat < x.toNat + 1 := by omega
    simp [hr, hin, List.getD]
  · rw [if_neg hr, if_neg (by simp; omega)]

theorem exec_ldVxMem (x : Reg) (s : State) :
    exec (.ldVxMem x) s = s.orHalt (s.memRead s.i.toNat (x.toNat + 1)) fun bytes => done (s.setVFrom 0 bytes) := rfl

theorem exec_ldVxMem_next {x : Reg} {s : State} (h : s.i.toNat + x.toNat < 4096) :
    exec (.ldVxMem x) s = .next (s.loaded x) := by
  rw [exec_ldVxMem, s.memRead_ok fun k hk => by omega, State.orHalt_ok, done_eq, State.setVFrom_eq, State.withV_pc,
    ← State.setVFrom_eq, State.loaded]

/-- Settles O48: a checked read of the block, and the registers by `State.loaded_getV`. -/
theorem loadRegisters : Obligations.LoadRegisters := by
  intro x s
  refine ⟨fun hfit => ⟨_, exec_ldVxMem_next hfit, s.loaded_getV x, s.loaded_rest x⟩, fun k hk hout hlow => ?_⟩
  rw [exec_ldVxMem, s.memRead_outOfBounds (by omega) hout hlow, State.orHalt_error]

/-- Settles O49: the block that is loaded is the one that was stored; the registers in between are no part of memory. -/
theorem storeThenLoadRestores : Obligations.StoreThenLoadRestores := by
  intro x s between hfit
  refine ⟨_, _, exec_ldMemVx_next hfit, exec_ldVxMem_next (s := (s.stored (s.firstRegs x)).withV between) hfit,
    State.loaded_i .., fun r => ?_⟩
  rw [State.loaded_getV]
  by_cases hr : r.toNat ≤ x.toNat
  · rw [if_pos hr, if_pos hr, State.withV_readByte]
    exact s.readByte_stored_firstRegs hr
  · rw [if_neg hr, if_neg hr]

/-- Settles O50: the word at the next PC is made of the bytes stored for V[k] and V[k+1]. -/
theorem storedCodeIsFetched : Obligations.StoredCodeIsFetched := by
  intro x k s hrun hm hpc hfit hk haddr
  have hx := x.isLt
  have hnext : (k + 1#4).toNat = k.toNat + 1 := by bv_omega
  have hhigh := s.readByte_stored_firstRegs (Nat.le_of_lt hk)
  have hlow := s.readByte_stored_firstRegs (x := x) (r := k + 1#4) (by omega)
  rw [haddr] at hhigh
  rw [hnext, ← Nat.add_assoc, haddr] at hlow
  have hword : (s.stored (s.firstRegs x)).wordAt (s.pc + 2#16) = bigEndian (s.getV k) (s.getV (k + 1#4)) := by
    rw [State.wordAt, hhigh, hlow]
  refine ⟨_, exec_ldMemVx_next hfit, ?_⟩
  have hrun' : (s.stored (s.firstRegs x)).seq = .run := hrun
  have hm' : (s.stored (s.firstRegs x)).host.moves = [] := hm
  rw [step_eq, turn_run_nil _ hrun' hm', instructionStep_fetchable _ hpc]
  exact congrArg (fun w => execVariant (decode w) _) hword

end Sys2Proof.Machine
end

section
/-! Proofs of the statements of spec/45_display.md: DRW (R115, R117), from `Plane.drawPixels_spec` on the cells that the sprite
sets. -/

namespace Sys2Proof.Machine

/-- The plane after the n-row sprite at I is drawn at (x0, y0), and whether a lit cell was turned off. -/
def State.drawing (s : State) (x0 y0 : Byte) (n : Nat) : Bool × Plane :=
  Plane.drawPixels (spritePixels x0 y0.toNat ((List.range n).map fun k => s.readByte (s.i.toNat + k))) (false, s.display)

theorem State.drawing_spec (s : State) (x0 y0 : Byte) {n : Nat} (hn : n ≤ 32) :
    (∀ px py, (s.drawing x0 y0 n).2.get px py = (s.pixel px py ^^ s.spriteBit x0 y0 n px py)) ∧
    ((s.drawing x0 y0 n).1 = true ↔ ∃ px py, s.pixel px py = true ∧ s.spriteBit x0 y0 n px py = true) := by
  have hdistinct := nodup_spritePixels x0 y0.toNat ((List.range n).map fun k => s.readByte (s.i.toNat + k))
    (by rwa [List.length_map, List.length_range])
  obtain ⟨hcells, hlit⟩ := Plane.drawPixels_spec _ hdistinct false s.display
  constructor
  · intro px py
    simp only [State.drawing, hcells, mem_spritePixels_iff s x0 y0 n hn, Bool.decide_eq_true, State.pixel]
  · rw [State.drawing, hlit]
    constructor
    · rintro (h | ⟨⟨px, py⟩, hmem, hp⟩)
      · cases h
      · exact ⟨px, py, hp, (mem_spritePixels_iff s x0 y0 n hn px py).mp hmem⟩
    · rintro ⟨px, py, hp, hbit⟩
      exact .inr ⟨(px, py), (mem_spritePixels_iff s x0 y0 n hn px py).mpr hbit, hp⟩

/-- The state after a completed DRW (R117). -/
def State.drew (s : State) (x y : Reg) (n : Nibble) : State :=
  ((s.withDisplay (s.drawing (s.getV x) (s.getV y) n.toNat).2).setV Reg.vF
    (collisionFlag (s.drawing (s.getV x) (s.getV y) n.toNat).1)).withPc (s.pc + 2#16)

theorem exec_drwVxVyN_next {x y : Reg} {n : Nibble} {s : State} (h : n.toNat = 0 ∨ s.i.toNat + n.toNat ≤ 4096) :
    exec (.drwVxVyN x y n) s = .next (s.drew x y n) := by
  show s.orHalt (s.memRead s.i.toNat n.toNat) _ = _
  rw [s.memRead_ok fun k hk => by omega, State.orHalt_ok]
  rfl

theorem exec_drwVxVyN_outOfBounds {x y : Reg} {n : Nibble} {s : State} {k : Nat} (hk : k < n.toNat)
    (hout : 4096 ≤ s.i.toNat + k) (hlow : ∀ j, j < k → s.i.toNat + j < 4096) :
    exec (.drwVxVyN x y n) s = .next (s.withSeq (.halted (.outOfBounds (s.i.toNat + k)))) := by
  show s.orHalt (s.memRead s.i.toNat n.toNat) _ = _
  rw [s.memRead_outOfBounds hk hout hlow, State.orHalt_error]

theorem State.drew_pixel (s : State) (x y : Reg) (n : Nibble) (px : Fin 64) (py : Fin 32) :
    (s.drew x y n).pixel px py = (s.pixel px py ^^ s.spriteBit (s.getV x) (s.getV y) n.toNat px py) := by
  rw [State.drew, State.withPc_pixel, State.setV_pixel, State.pixel_withDisplay]
  exact (s.drawing_spec _ _ (by omega)).1 px py

theorem State.drew_flag (s : State) (x y : Reg) (n : Nibble) :
    (s.drew x y n).getV Reg.vF = collisionFlag (s.drawing (s.getV x) (s.getV y) n.toNat).1 := by
  rw [State.drew, State.withPc_getV, State.getV_setV_self]

theorem State.drew_getV_ne (s : State) (x y : Reg) (n : Nibble) {r : Reg} (h : r ≠ Reg.vF) :
    (s.drew x y n).getV r = s.getV r := by
  rw [State.drew, State.withPc_getV, State.getV_setV_ne _ _ h, State.withDisplay_getV]

theorem State.drew_rest (s : State) (x y : Reg) (n : Nibble) :
    s.drew x y n = ((s.withV (s.drew x y n).v).withDisplay (s.drew x y n).display).withPc (s.pc + 2#16) := rfl

theorem State.drew_collides {s : State} {x y : Reg} {n : Nibble}
    (h : ∃ px py, s.pixel px py = true ∧ s.spriteBit (s.getV x) (s.getV y) n.toNat px py = true) :
    (s.drew x y n).getV Reg.vF = 1#8 := by
  rw [s.drew_flag, (s.drawing_spec _ _ (by omega)).2.mpr h]
  rfl

theorem State.drew_misses {s : State} {x y : Reg} {n : Nibble}
    (h : ∀ px py, s.pixel px py = true → s.spriteBit (s.getV x) (s.getV y) n.toNat px py = false) :
    (s.drew x y n).getV Reg.vF = 0#8 := by
  have hmiss : (s.drawing (s.getV x) (s.getV y) n.toNat).1 = false := by
    rw [← Bool.not_eq_true, (s.drawing_spec _ _ (by omega)).2]
    rintro ⟨px, py, hp, hbit⟩
    rw [h px py hp] at hbit
    cases hbit
  rw [s.drew_flag, hmiss]
  rfl

/-- Settles O52: the state `State.drew`, cell by cell, or the first address of the sprite outside memory. -/
theorem drawSprite : Obligations.DrawSprite := by
  intro x y n s
  refine ⟨fun hfit => ⟨_, exec_drwVxVyN_next (hfit.imp_left (congrArg BitVec.toNat)), s.drew_pixel x y n,
    State.drew_collides, State.drew_misses, fun r hr => s.drew_getV_ne x y n hr, s.drew_rest x y n⟩, fun k =>
    exec_drwVxVyN_outOfBounds⟩

/-- Settles O53: the sprite is the same both times, so the second draw undoes the first, and a cell is lit between the two
exactly where a lit sprite bit fell on a dark cell. -/
theorem drawTwiceRestores : Obligations.DrawTwiceRestores := by
  intro x y n s hx hy hfit
  have hbits px py : (s.drew x y n).spriteBit ((s.drew x y n).getV x) ((s.drew x y n).getV y) n.toNat px py =
      s.spriteBit (s.getV x) (s.getV y) n.toNat px py := by
    rw [s.drew_getV_ne x y n hx, s.drew_getV_ne x y n hy]
    rfl
  refine ⟨_, _, exec_drwVxVyN_next (.inr hfit), exec_drwVxVyN_next (s := s.drew x y n) (.inr hfit), ?restored, ?again,
    ?none⟩
  case restored =>
    intro px py
    rw [State.drew_pixel, hbits, s.drew_pixel, Bool.xor_assoc, Bool.xor_self, Bool.xor_false]
  case again =>
    rintro ⟨px, py, hdark, hbit⟩
    refine State.drew_collides ⟨px, py, ?_, by rw [hbits, hbit]⟩
    rw [s.drew_pixel, hdark, hbit, Bool.false_xor]
  case none =>
    intro h
    refine State.drew_misses fun px py hlit => ?_
    rw [hbits]
    cases hp : s.pixel px py with
    | false => exact h px py hp
    | true => simpa [s.drew_pixel, hp] using hlit

end Sys2Proof.Machine
end
